-- ==== Sys2Proof/Word.lean ====
section
/-! DEFINITION. The word types of the MD4 core (00_scope.md R7, R9): widths only.
Every value is unsigned and bit 0 is the least significant bit. -/

namespace Sys2Proof

/-- An accumulator word, a counter word, a message word (`W` = 32, R7). -/
abbrev Word := BitVec 32

/-- A byte of the block, of the digest or of the length footer. -/
abbrev Byte := BitVec 8

/-- A command word (`CMDW` = 48, R7, R70). -/
abbrev CmdWord := BitVec 48

/-- A response word (`RSPW` = 40, R7, R72). -/
abbrev RspWord := BitVec 40

/-- The four accumulator words, or the four working registers: index 0 to 3 is A, B, C, D (R21, R34). -/
abbrev Quad := Vector Word 4

/-- The sixteen message words of one block (`NX` = 16, R7, R141). -/
abbrev Schedule := Vector Word 16

/-- The 64 bytes of one block (`BLOCKB` = 64, R7). -/
abbrev Block := Vector Byte 64

end Sys2Proof
end

