-- ==== Sys2Proof/Syntax.lean ====
section
/-! DEFINITION. The commands of MD4CORE-1, one constructor for each row of spec/opcode_table.json
(30_encoding.md R74), with the operands that the row's format has (R71, R73). -/

namespace Sys2Proof

/-- A command with its operand fields as they stand in the command word (R73): an index is the 8-bit `idx` field,
also where it lies beyond the command's limit (see WellFormed.lean). -/
inductive Instr where
  /-- start a fresh digest (R100); format N -/
  | init
  /-- advance the bit counter by `len` bytes (R120); format D -/
  | count (len : Word)
  /-- load one byte into the block buffer (R130); format IB -/
  | ldb (pos : BitVec 8) (byte : Byte)
  /-- load one word into the block buffer (R131); format IW -/
  | ldw (wordIndex : BitVec 8) (word : Word)
  /-- transform the accumulator by the block (R140); format N -/
  | xform
  /-- read one accumulator word (R180); format I -/
  | rdacc (i : BitVec 8)
  /-- read one digest byte (R181); format I -/
  | rddg (k : BitVec 8)
  /-- read one counter word (R182); format I -/
  | rdcnt (i : BitVec 8)
  /-- read the status view (R102); format N -/
  | rdstat
  /-- erase the state and go to IDLE (R101); format N -/
  | scrub
  /-- write one accumulator word (R183); format IW -/
  | wracc (i : BitVec 8) (word : Word)
  /-- write one counter word (R184); format IW -/
  | wrcnt (i : BitVec 8) (word : Word)
  deriving DecidableEq, Repr

end Sys2Proof
end

