-- ==== Sys2Proof/WellFormed.lean ====
section
/-! DEFINITION. Which commands are well formed: the index lies below the command's limit
(30_encoding.md R75).  Formats N and D have no index and no limit. -/

namespace Sys2Proof

/-- The index operand is inside the command's index space (R75, 20_memory.md R50). -/
def Instr.wellFormed : Instr → Bool
  | .init => true
  | .count _ => true
  | .ldb pos _ => decide (pos.toNat < 64)
  | .ldw wordIndex _ => decide (wordIndex.toNat < 16)
  | .xform => true
  | .rdacc i => decide (i.toNat < 4)
  | .rddg k => decide (k.toNat < 16)
  | .rdcnt i => decide (i.toNat < 2)
  | .rdstat => true
  | .scrub => true
  | .wracc i _ => decide (i.toNat < 4)
  | .wrcnt i _ => decide (i.toNat < 2)

end Sys2Proof
end

