-- ==== Sys2Proof/Decode.lean ====
section
/-! DEFINITION. The command word: its fields, the opcode map, the decoder and the encoder
(30_encoding.md R70 to R79). -/

namespace Sys2Proof

/-- `cmd[47:40]` (R70). -/
def opField (w : CmdWord) : BitVec 8 := w.extractLsb' 40 8

/-- `cmd[39:32]` (R70). -/
def idxField (w : CmdWord) : BitVec 8 := w.extractLsb' 32 8

/-- `cmd[31:0]` (R70). -/
def dataField (w : CmdWord) : Word := w.extractLsb' 0 32

/-- The command word with the three fields given (R70). -/
def cmdWord (op idx : BitVec 8) (data : Word) : CmdWord := op ++ idx ++ data

/-- The twelve commands by name (R74). -/
inductive Mnemonic where
  | init | count | ldb | ldw | xform | rdacc | rddg | rdcnt | rdstat | scrub | wracc | wrcnt
  deriving DecidableEq, Repr

/-- One row of the opcode map: the bits marked by `mask` must equal `pattern`, and an index, where the row has a
limit, must lie below it (R74, R75). -/
structure OpRow where
  name : Mnemonic
  pattern : CmdWord
  mask : CmdWord
  limit : Option Nat
  deriving DecidableEq, Repr

/-- The opcode map, row by row as R74 prints it. -/
def opRow : Mnemonic → OpRow
  | .init => ⟨.init, 0x010000000000, 0xFFFFFFFFFFFF, none⟩
  | .count => ⟨.count, 0x020000000000, 0xFFFF00000000, none⟩
  | .ldb => ⟨.ldb, 0x030000000000, 0xFF00FFFFFF00, some 64⟩
  | .ldw => ⟨.ldw, 0x040000000000, 0xFF0000000000, some 16⟩
  | .xform => ⟨.xform, 0x050000000000, 0xFFFFFFFFFFFF, none⟩
  | .rdacc => ⟨.rdacc, 0x060000000000, 0xFF00FFFFFFFF, some 4⟩
  | .rddg => ⟨.rddg, 0x070000000000, 0xFF00FFFFFFFF, some 16⟩
  | .rdcnt => ⟨.rdcnt, 0x080000000000, 0xFF00FFFFFFFF, some 2⟩
  | .rdstat => ⟨.rdstat, 0x090000000000, 0xFFFFFFFFFFFF, none⟩
  | .scrub => ⟨.scrub, 0x0A0000000000, 0xFFFFFFFFFFFF, none⟩
  | .wracc => ⟨.wracc, 0x0B0000000000, 0xFF0000000000, some 4⟩
  | .wrcnt => ⟨.wrcnt, 0x0C0000000000, 0xFF0000000000, some 2⟩

/-- The rows in the order of R74. -/
def opRows : List OpRow :=
  [opRow .init, opRow .count, opRow .ldb, opRow .ldw, opRow .xform, opRow .rdacc,
   opRow .rddg, opRow .rdcnt, opRow .rdstat, opRow .scrub, opRow .wracc, opRow .wrcnt]

/-- The word matches the row: opcode right and every reserved bit 0 (R74, R76). -/
def OpRow.selects (r : OpRow) (w : CmdWord) : Bool := w &&& r.mask == r.pattern

/-- The index lies below the row's limit, where the row has one (R75). -/
def OpRow.inLimit (r : OpRow) (idx : BitVec 8) : Bool :=
  match r.limit with
  | none => true
  | some bound => decide (idx.toNat < bound)

/-- The command of a selected row, its operands taken from the fields as they stand (R73). -/
def operandsOf (name : Mnemonic) (idx : BitVec 8) (data : Word) : Instr :=
  match name with
  | .init => .init
  | .count => .count data
  | .ldb => .ldb idx (data.extractLsb' 0 8)
  | .ldw => .ldw idx data
  | .xform => .xform
  | .rdacc => .rdacc idx
  | .rddg => .rddg idx
  | .rdcnt => .rdcnt idx
  | .rdstat => .rdstat
  | .scrub => .scrub
  | .wracc => .wracc idx data
  | .wrcnt => .wrcnt idx data

/-- What decoding a word gives (R78). -/
inductive Decoded where
  /-- no row of the opcode map matches (R76, R77) -/
  | illegal
  /-- a row matches and its index is at or beyond the limit (R75) -/
  | outOfBounds
  /-- a command with its operands -/
  | command (i : Instr)
  deriving DecidableEq, Repr

/-- Decode a command word: total, and a function of the word alone (R78). -/
def decode (w : CmdWord) : Decoded :=
  match opRows.find? (fun r => r.selects w) with
  | none => .illegal
  | some r =>
    if r.inLimit (idxField w) then .command (operandsOf r.name (idxField w) (dataField w))
    else .outOfBounds

/-- The word of a command, written from the formats of R71 and the opcodes of R74; a field that the format does not
use is 0 (R76). -/
def encode : Instr → CmdWord
  | .init => cmdWord 0x01 0 0
  | .count len => cmdWord 0x02 0 len
  | .ldb pos byte => cmdWord 0x03 pos (byte.setWidth 32)
  | .ldw wordIndex word => cmdWord 0x04 wordIndex word
  | .xform => cmdWord 0x05 0 0
  | .rdacc i => cmdWord 0x06 i 0
  | .rddg k => cmdWord 0x07 k 0
  | .rdcnt i => cmdWord 0x08 i 0
  | .rdstat => cmdWord 0x09 0 0
  | .scrub => cmdWord 0x0A 0 0
  | .wracc i word => cmdWord 0x0B i word
  | .wrcnt i word => cmdWord 0x0C i word

/-- The command word that the opcode table's numbering gives: the word of 48 bits is one value, its bit 0 the
table's bit 0 (R70, R82); bits at or above `nbits` are 0, and a number of more than 48 bits is no command word. -/
def tableWord (nbits w : Nat) : Option CmdWord :=
  if w % 2 ^ nbits < 2 ^ 48 then some (BitVec.ofNat 48 (w % 2 ^ nbits)) else none

/-- The instruction that the decoder reads from the bits `w` of a row of spec/opcode_table.json. -/
def decodeTableWord (nbits w : Nat) : Option Instr :=
  match tableWord nbits w with
  | none => none
  | some c =>
    match decode c with
    | .command i => some i
    | .illegal => none
    | .outOfBounds => none

end Sys2Proof
end

