-- ==== Sys2Proof/Machine/Operands.lean ====
section
/-! DEFINITION. The operand forms: an index checked against its space, the bytes of a word, and a word made of bytes
(00_scope.md R9; 20_memory.md R50 to R55; 30_encoding.md R75). -/

namespace Sys2Proof.Machine

/-- The index operand as an element of its space, or nothing when it is at or beyond the limit (R55, R75). -/
def indexIn (bound : Nat) (idx : BitVec 8) : Option (Fin bound) :=
  if h : idx.toNat < bound then some ⟨idx.toNat, h⟩ else none

/-- Byte `k` of a word, byte 0 the least significant (R9). -/
def byteOf (w : Word) (k : Fin 4) : Byte := w.extractLsb' (8 * k.val) 8

/-- The word of four bytes, the first the least significant (R51, R53). -/
def wordOfBytes (b0 b1 b2 b3 : Byte) : Word := b3 ++ b2 ++ b1 ++ b0

/-- The block index of byte `k` of block word `j`, `4j + k` (R50, R54). -/
def wordByteIndex (j : Fin 16) (k : Fin 4) : Nat := 4 * j.val + k.val

/-- The accumulator word that holds digest byte `k`, `k div 4` (R50, R181). -/
def digestWord (k : Fin 16) : Fin 4 := ⟨k.val / 4, by omega⟩

/-- The byte of that word, `k mod 4` (R50, R181). -/
def digestByteInWord (k : Fin 16) : Fin 4 := ⟨k.val % 4, by omega⟩

end Sys2Proof.Machine
end

