-- ==== Sys2Proof/Config.lean ====
section
/-! DEFINITION. The constants that the spec leaves open, each without a body: no proof can see a value.
Everything the spec fixes (IV, K2, K3, the tables of the schedule) stands in Machine/Transform.lean and Machine/Ops.lean. -/

namespace Sys2Proof

/-- What a read of a block byte that holds no value would give, by index.  20_memory.md R58: such a byte is never
read and a model must not assume it zero.  DESIGN CHOICE, safe, log entry 3: a free value, which flows into no
result as long as BLKV agrees with BLK (Safety.lean, `MaskMatchesBlock`). -/
opaque Config.absentByte : Nat → Byte

/-- `T_XFORM`, the latency of a transform (00_scope.md R7, 70_reset_and_hazards.md R268): an open parameter that no
rule, and nothing in this model, reads (log entry 5). -/
opaque Config.tXform : Nat

end Sys2Proof
end

