-- ==== Sys2Proof/Machine/State.lean ====
section
/-! DEFINITION. The state of the MD4 core as plain data (10_state.md R20 to R29), its two ports, and reset (R37, R260). -/

namespace Sys2Proof.Machine

/-- `PHASE` (10_state.md R28). -/
inductive Phase where
  /-- no digest is in progress: after reset and after SCRUB -/
  | idle
  /-- INIT has been performed and SCRUB has not since -/
  | active
  deriving DecidableEq, Repr

/-- What reaches the core from outside (00_scope.md R12): one command word of the host, or a reset of the
environment, which falls between two commands (70_reset_and_hazards.md R260). -/
inductive Input where
  | cmd (w : CmdWord)
  | reset
  deriving DecidableEq, Repr

/-- Reasons to stop with a fault: there are none.  An error of the spec is a rejected command, after which the core
goes on (60_exceptions.md R236), and "the core never stops answering" (93_implementation_defined.md section 1). -/
inductive Fault where
  deriving DecidableEq, Repr

/-- Reasons to give an instruction no meaning. -/
inductive Refusal where
  /-- Raised by an arm of `exec` whose instruction has no meaning yet: no arm raises it in this model.  Safe: the
  model would stop where the hardware goes on. -/
  | notModelled (mnemonic : String)
  deriving DecidableEq, Repr

/-- The state: the tuple of R20, then the two ports, which are the model's own fields (log entries 1 and 2). -/
structure State where
  /-- `ACC[0..3]`, the words A, B, C, D (R21) -/
  acc : Quad
  /-- `CNT[0..1]`, the low word first (R23) -/
  cnt : Vector Word 2
  /-- `BLK`: the bytes that hold a value, by rising index; an index that is not listed holds no value (R25) -/
  blk : List Host.Cell
  /-- `BLKV`: bit `i` says that `BLK[i]` holds a value (R26) -/
  blkv : BitVec 64
  /-- `PHASE` (R28) -/
  phase : Phase
  /-- `ERR`, the code of the first rejected command since reset, or 0 (R29) -/
  err : BitVec 4
  /-- what the host and the environment will present next, oldest first; empty while the host waits -/
  input : List Input
  /-- the response words given so far, newest first -/
  rsps : List RspWord
  deriving DecidableEq, Repr

/-- The state right after reset (R37, R260); both ports empty (DESIGN CHOICE, log entries 1 and 2). -/
def State.reset : State where
  acc := #v[0, 0, 0, 0]
  cnt := #v[0, 0]
  blk := []
  blkv := 0
  phase := .idle
  err := 0
  input := []
  rsps := []

end Sys2Proof.Machine
end

