-- ==== Sys2Proof/Machine/Ops.lean ====
section
/-! DEFINITION. The named operations over the registers, the block buffer and the response port, and the one way in
which a command is rejected (10_state.md; 20_memory.md R50 to R58; 30_encoding.md R72; 60_exceptions.md R230 to R238). -/

namespace Sys2Proof.Machine

/-! ### The block buffer -/

/-- The value of block byte `k`, or nothing where it holds no value (10_state.md R25). -/
def Memory.lookup : List Host.Cell → Nat → Option Byte
  | [], _ => none
  | (a, v) :: m, k => if a = k then some v else Memory.lookup m k

/-- Put a value at block byte `k`, keeping the cells in rising order; an old value is replaced (R52, 42_blockload.md R133). -/
def Memory.store : List Host.Cell → Nat → Byte → List Host.Cell
  | [], k, b => [(k, b)]
  | (a, v) :: m, k, b =>
    if k < a then (k, b) :: (a, v) :: m
    else if k = a then (k, b) :: m
    else (a, v) :: Memory.store m k b

/-- The cells have indices that rise strictly, the first at least `low` and all below 64. -/
def Memory.wfFrom : Nat → List Host.Cell → Bool
  | _, [] => true
  | low, (a, _) :: m => decide (low ≤ a) && decide (a < 64) && Memory.wfFrom (a + 1) m

/-- The canonical form of the block buffer: indices strictly rising, all inside the block.  What is not listed holds
no value, so no listed cell equals what an unlisted index reads as. -/
def Memory.wf (m : List Host.Cell) : Bool := Memory.wfFrom 0 m

/-- A read of block byte `k`: the value it holds.  Where it holds none, a free value, which no command reads as long
as BLKV agrees with BLK (20_memory.md R58, log entry 3). -/
def Memory.read (m : List Host.Cell) (k : Nat) : Byte := (Memory.lookup m k).getD (Config.absentByte k)

/-- `MemWrite(i, 1, b)` with its valid bit (20_memory.md R52). -/
def State.storeByte (s : State) (i : Fin 64) (b : Byte) : State :=
  { s with blk := Memory.store s.blk i.val b, blkv := s.blkv ||| (1#64 <<< i.val) }

/-- The block index of byte `k` of word `j`, inside the block (R50). -/
def blockIndex (j : Fin 16) (k : Fin 4) : Fin 64 := ⟨wordByteIndex j k, by simp only [wordByteIndex]; omega⟩

/-- `MemWrite(4j, 4, v)` with its four valid bits, the least significant byte at the lowest index (R52). -/
def State.storeWord (s : State) (j : Fin 16) (v : Word) : State :=
  (((s.storeByte (blockIndex j 0) (byteOf v 0)).storeByte (blockIndex j 1) (byteOf v 1)).storeByte
    (blockIndex j 2) (byteOf v 2)).storeByte (blockIndex j 3) (byteOf v 3)

/-- Every block byte holds no value, and no valid bit is set (10_state.md R25, R26). -/
def State.clearBlock (s : State) : State := { s with blk := [], blkv := 0 }

/-- The 64 bytes that XFORM reads (R53). -/
def State.blockBytes (s : State) : Block := Vector.ofFn fun i => Memory.read s.blk i.val

/-! ### The registers -/

/-- `ACC[i] <- v` (10_state.md R21). -/
def State.setAcc (s : State) (i : Fin 4) (v : Word) : State := { s with acc := s.acc.set i.val v }

/-- `CNT[i] <- v` (10_state.md R23). -/
def State.setCnt (s : State) (i : Fin 2) (v : Word) : State := { s with cnt := s.cnt.set i.val v }

/-- The initial constants `IV` (10_state.md R22). -/
def iv : Quad := #v[0x67452301, 0xEFCDAB89, 0x98BADCFE, 0x10325476]

/-- ACC, CNT and the block buffer of a fresh digest, PHASE ACTIVE (40_lifecycle.md R100). -/
def State.begin (s : State) : State :=
  { s.clearBlock with acc := iv, cnt := #v[0, 0], phase := .active }

/-- ACC, CNT and the block buffer erased, PHASE IDLE (40_lifecycle.md R101). -/
def State.erase (s : State) : State :=
  { s.clearBlock with acc := #v[0, 0, 0, 0], cnt := #v[0, 0], phase := .idle }

/-! ### Responses and rejection -/

/-- A response word: status above data (30_encoding.md R72). -/
def rspWord (status : BitVec 8) (rdata : Word) : RspWord := status ++ rdata

/-- `rsp[39:32]` (R72). -/
def rspStatus (r : RspWord) : BitVec 8 := r.extractLsb' 32 8

/-- `rsp[31:0]` (R72). -/
def rspData (r : RspWord) : Word := r.extractLsb' 0 32

/-- The core answers with one response word (R72). -/
def State.answer (s : State) (status : BitVec 8) (rdata : Word) : State :=
  { s with rsps := rspWord status rdata :: s.rsps }

/-- `respond(v)`: a performed command answers `OK` with its data (00_scope.md R11, R72). -/
def State.respond (s : State) (rdata : Word) : State := s.answer 0 rdata

/-- The four errors (60_exceptions.md R231). -/
inductive ErrCode where
  /-- no row of the opcode map matches the word (R232) -/
  | illegal
  /-- the command needs ACTIVE and the phase is IDLE (R234) -/
  | state
  /-- the index is at or beyond its limit (R233) -/
  | bounds
  /-- the block is not complete (R235) -/
  | incomplete
  deriving DecidableEq, Repr

/-- The code that ERR latches (R231). -/
def ErrCode.code : ErrCode → BitVec 4
  | .illegal => 1
  | .state => 2
  | .bounds => 3
  | .incomplete => 4

/-- The status of a rejected command's response (R231). -/
def ErrCode.status (e : ErrCode) : BitVec 8 := e.code.setWidth 8

/-- Record an error in ERR, unless one is recorded already: the first is kept (10_state.md R29). -/
def State.latch (s : State) (e : ErrCode) : State :=
  { s with err := if s.err = 0 then e.code else s.err }

/-- The exception of this machine, taken in one place: a rejected command changes nothing but ERR and answers its
code with data 0 (60_exceptions.md R236).  Nothing is saved and there is nothing to return from (R230, R238). -/
def State.reject (s : State) (e : ErrCode) : Host.Outcome State Fault Refusal :=
  .next ((s.latch e).answer e.status 0)

/-- The lifecycle check: perform the command in ACTIVE, reject it with ErrState in IDLE (R234, R236). -/
def State.ifActive (s : State) (performed : Host.Outcome State Fault Refusal) :
    Host.Outcome State Fault Refusal :=
  match s.phase with
  | .idle => s.reject .state
  | .active => performed

/-- The reset event: every piece of the core at its reset value, ERR among them; what the host and the environment
present next, and what the host has been answered, is outside the core and stays (70_reset_and_hazards.md R260). -/
def State.resetEvent (s : State) : State := { State.reset with input := s.input, rsps := s.rsps }

end Sys2Proof.Machine
end

