-- ==== Sys2Proof/Machine/Flags.lean ====
section
/-! DEFINITION. The derived values that software sees as flags: bit_count, INDEX, FILL, FULL and the status view
(10_state.md R24, R27, R30).  The core has no condition codes (R33). -/

namespace Sys2Proof.Machine

/-- The number of 1 bits (00_scope.md R10). -/
def popcount64 (m : BitVec 64) : Nat := (List.range 64).countP fun i => m.getLsbD i

/-- `bit_count = CNT[1] * 2^32 + CNT[0]` (R24). -/
def State.bitCount (s : State) : Nat := s.cnt[1].toNat * 2 ^ 32 + s.cnt[0].toNat

/-- `INDEX = CNT[0][8:3]` (R24). -/
def State.index (s : State) : BitVec 6 := s.cnt[0].extractLsb' 3 6

/-- `FILL = popcount(BLKV)` (R27). -/
def State.fill (s : State) : Nat := popcount64 s.blkv

/-- `FULL`: all 64 valid bits are set (R26, R27). -/
def State.full (s : State) : Bool := s.blkv == BitVec.allOnes 64

/-- The `ACTIVE` bit of the status view (R30). -/
def State.activeBit (s : State) : BitVec 1 :=
  match s.phase with
  | .idle => 0
  | .active => 1

/-- `STATUS`: bits 31:22 zero, INDEX 21:16, FULL 15, FILL 14:8, ERR 7:4, 3:1 zero, ACTIVE 0 (R30, 40_lifecycle.md R102). -/
def State.status (s : State) : Word :=
  (0#10) ++ s.index ++ BitVec.ofBool s.full ++ BitVec.ofNat 7 s.fill ++ s.err ++ (0#3) ++ s.activeBit

end Sys2Proof.Machine
end

