-- ==== Sys2Proof/Machine/BitCount.lean ====
section
/-! DEFINITION. The bit-count updater, command COUNT (41_bitcount.md). -/

namespace Sys2Proof.Machine

/-- `add = (len << 3) mod 2^32` (R120). -/
def countAdd (len : Word) : Word := len <<< 3

/-- `sum = CNT[0] + add`, 33 bits (R120). -/
def countSum (low len : Word) : BitVec 33 := low.setWidth 33 + (countAdd len).setWidth 33

/-- The low word after COUNT, `sum[31:0]` (R120). -/
def countLow (low len : Word) : Word := (countSum low len).extractLsb' 0 32

/-- The high word after COUNT: the carry `sum[32]` and the three bits `len >> 29` are added, modulo 2^32 (R120). -/
def countHigh (low high len : Word) : Word :=
  high + ((countSum low len).extractLsb' 32 1).setWidth 32 + (len >>> 29)

/-- `bit_count` advanced by `len` bytes (R120). -/
def State.advance (s : State) (len : Word) : State :=
  { s with cnt := #v[countLow s.cnt[0] len, countHigh s.cnt[0] s.cnt[1] len] }

/-- COUNT: ACTIVE only (R120). -/
def execCount (len : Word) (s : State) : Host.Outcome State Fault Refusal :=
  s.ifActive (.next ((s.advance len).respond 0))

end Sys2Proof.Machine
end

