-- ==== Sys2Proof/Machine/BlockLoad.lean ====
section
/-! DEFINITION. The block loads LDB and LDW (42_blockload.md).  The index is checked before the phase
(60_exceptions.md R237). -/

namespace Sys2Proof.Machine

/-- LDB: one byte into the block buffer; no pointer moves and no transform starts (R130, R133, R134). -/
def execLdb (pos : BitVec 8) (byte : Byte) (s : State) : Host.Outcome State Fault Refusal :=
  match indexIn 64 pos with
  | none => s.reject .bounds
  | some i => s.ifActive (.next ((s.storeByte i byte).respond 0))

/-- LDW: four bytes into the block buffer, the least significant at the lowest index (R131, R133, R134). -/
def execLdw (wordIndex : BitVec 8) (word : Word) (s : State) : Host.Outcome State Fault Refusal :=
  match indexIn 16 wordIndex with
  | none => s.reject .bounds
  | some j => s.ifActive (.next ((s.storeWord j word).respond 0))

end Sys2Proof.Machine
end

