-- ==== Sys2Proof/Machine/Lifecycle.lean ====
section
/-! DEFINITION. The lifecycle commands INIT, SCRUB and RDSTAT, performed in both phases (40_lifecycle.md). -/

namespace Sys2Proof.Machine

/-- INIT: start a fresh digest, in either phase; ERR is not changed (R100). -/
def execInit (s : State) : Host.Outcome State Fault Refusal := .next (s.begin.respond 0)

/-- SCRUB: consume and erase the state, in either phase; ERR is not changed (R101). -/
def execScrub (s : State) : Host.Outcome State Fault Refusal := .next (s.erase.respond 0)

/-- RDSTAT: answer the status view, in either phase; no state changes (R102). -/
def execRdstat (s : State) : Host.Outcome State Fault Refusal := .next (s.respond s.status)

end Sys2Proof.Machine
end

