-- ==== Sys2Proof/Machine/ReadOut.lean ====
section
/-! DEFINITION. The read-out and context commands RDACC, RDDG, RDCNT, WRACC and WRCNT (44_readout_context.md).
The index is checked before the phase (60_exceptions.md R237). -/

namespace Sys2Proof.Machine

/-- Byte `k` of the digest: byte `k mod 4` of `ACC[k div 4]` (R181). -/
def digestByte (acc : Quad) (k : Fin 16) : Byte := byteOf acc[digestWord k] (digestByteInWord k)

/-- `DIGEST(ACC)`: the sixteen bytes (R185). -/
def digestOf (acc : Quad) : List Byte := (List.finRange 16).map (digestByte acc)

/-- RDACC: answer one accumulator word; no state changes (R180). -/
def execRdacc (i : BitVec 8) (s : State) : Host.Outcome State Fault Refusal :=
  match indexIn 4 i with
  | none => s.reject .bounds
  | some k => s.ifActive (.next (s.respond s.acc[k]))

/-- RDDG: answer one digest byte, zero-extended; no state changes (R181). -/
def execRddg (k : BitVec 8) (s : State) : Host.Outcome State Fault Refusal :=
  match indexIn 16 k with
  | none => s.reject .bounds
  | some j => s.ifActive (.next (s.respond ((digestByte s.acc j).setWidth 32)))

/-- RDCNT: answer one counter word; no state changes (R182). -/
def execRdcnt (i : BitVec 8) (s : State) : Host.Outcome State Fault Refusal :=
  match indexIn 2 i with
  | none => s.reject .bounds
  | some k => s.ifActive (.next (s.respond s.cnt[k]))

/-- WRACC: write one accumulator word (R183). -/
def execWracc (i : BitVec 8) (word : Word) (s : State) : Host.Outcome State Fault Refusal :=
  match indexIn 4 i with
  | none => s.reject .bounds
  | some k => s.ifActive (.next ((s.setAcc k word).respond 0))

/-- WRCNT: write one counter word; bits 2:0 of the low word are kept as written (R184). -/
def execWrcnt (i : BitVec 8) (word : Word) (s : State) : Host.Outcome State Fault Refusal :=
  match indexIn 2 i with
  | none => s.reject .bounds
  | some k => s.ifActive (.next ((s.setCnt k word).respond 0))

end Sys2Proof.Machine
end

