-- ==== Sys2Proof/Machine/Transform.lean ====
section
/-! DEFINITION. The transform engine, command XFORM: message schedule, round functions, the 48-step schedule, the
feed-forward and the consumption of the block (43_transform.md R140 to R155). -/

namespace Sys2Proof.Machine

/-! ### Round functions and rotation -/

/-- `F(x, y, z) = (x & y) | (~x & z)` (R143). -/
def roundF (x y z : Word) : Word := (x &&& y) ||| (~~~x &&& z)

/-- `G(x, y, z) = (x & y) | (x & z) | (y & z)` (R144). -/
def roundG (x y z : Word) : Word := (x &&& y) ||| (x &&& z) ||| (y &&& z)

/-- `H(x, y, z) = x ^ y ^ z` (R145). -/
def roundH (x y z : Word) : Word := x ^^^ y ^^^ z

/-- `ROL(v, s)` for `1 <= s <= 31` (00_scope.md R10, R146). -/
def rol (v : Word) (s : Nat) : Word := (v <<< s) ||| (v >>> (32 - s))

/-! ### The schedule -/

/-- The three rounds of sixteen steps (R147). -/
inductive Round where
  | one | two | three
  deriving DecidableEq, Repr

/-- Step `t` belongs to round `(t div 16) + 1` (R147). -/
def roundOf (t : Fin 48) : Round :=
  if t.val < 16 then .one else if t.val < 32 then .two else .three

/-- The round's function: F, G, H (R148 to R150). -/
def Round.fn : Round → Word → Word → Word → Word
  | .one => roundF
  | .two => roundG
  | .three => roundH

/-- The round's additive constant: none (0), `K2`, `K3` (10_state.md R31, R148 to R150). -/
def Round.const : Round → Word
  | .one => 0
  | .two => 0x5A827999
  | .three => 0x6ED9EBA1

/-- The round's word order: `k = t`, `O2`, `O3` (R148 to R150). -/
def Round.wordOrder : Round → Vector (Fin 16) 16
  | .one => #v[0, 1, 2, 3, 4, 5, 6, 7, 8, 9, 10, 11, 12, 13, 14, 15]
  | .two => #v[0, 4, 8, 12, 1, 5, 9, 13, 2, 6, 10, 14, 3, 7, 11, 15]
  | .three => #v[0, 8, 4, 12, 2, 10, 6, 14, 1, 9, 5, 13, 3, 11, 7, 15]

/-- The round's rotation cycle: `S1`, `S2`, `S3` (R148 to R150). -/
def Round.rotations : Round → Vector Nat 4
  | .one => #v[3, 7, 11, 19]
  | .two => #v[3, 5, 9, 13]
  | .three => #v[3, 9, 11, 15]

/-- The target register of step `t`, `(4 - (t mod 4)) mod 4`: the cycle a, d, c, b (R147, R151). -/
def targetOf (t : Fin 48) : Fin 4 := ⟨(4 - t.val % 4) % 4, by omega⟩

/-- The message word that step `t` reads (R147 to R150). -/
def wordIndexOf (t : Fin 48) : Fin 16 := (roundOf t).wordOrder[t.val % 16]

/-- The rotation amount of step `t` (R147 to R150). -/
def rotateAmountOf (t : Fin 48) : Nat := (roundOf t).rotations[t.val % 4]

/-! ### The transform -/

/-- `X[0..15]`: the sixteen little-endian words of the block (20_memory.md R53, R141). -/
def messageWords (b : Block) : Schedule :=
  Vector.ofFn fun i => wordOfBytes b[4 * i.val] b[4 * i.val + 1] b[4 * i.val + 2] b[4 * i.val + 3]

/-- The new value of the target register in step `t`: the four-term sum modulo 2^32, rotated (R146, R148 to R151). -/
def stepValue (x : Schedule) (t : Fin 48) (wk : Quad) : Word :=
  let j := targetOf t
  rol (wk[j] + (roundOf t).fn wk[j + 1] wk[j + 2] wk[j + 3] + x[wordIndexOf t] + (roundOf t).const) (rotateAmountOf t)

/-- `STEP(t)`: only the target register is written (R151). -/
def transformStep (x : Schedule) (wk : Quad) (t : Fin 48) : Quad :=
  wk.set (targetOf t).val (stepValue x t wk)

/-- Steps 0, 1, ..., 47 in this order (R147). -/
def transformSteps (x : Schedule) (wk : Quad) : Quad := (List.finRange 48).foldl (transformStep x) wk

/-- The feed-forward: the pre-transform words are added back, modulo 2^32 (R152). -/
def feedForward (acc wk : Quad) : Quad := Vector.ofFn fun i => acc[i] + wk[i]

/-- `MD4T`: the pure function from four words and 64 bytes to four words (R154). -/
def md4t (acc : Quad) (b : Block) : Quad := feedForward acc (transformSteps (messageWords b) acc)

/-- ACC transformed by the block, and the block consumed (R140, R153). -/
def State.transform (s : State) : State := { s.clearBlock with acc := md4t s.acc s.blockBytes }

/-- XFORM: the phase is checked before the block (R140, 60_exceptions.md R237). -/
def execXform (s : State) : Host.Outcome State Fault Refusal :=
  s.ifActive (if s.full then .next (s.transform.respond 0) else s.reject .incomplete)

end Sys2Proof.Machine
end

