-- ==== Sys2Proof/Machine/Dispatch.lean ====
section
/-! DEFINITION. The dispatch: one arm for each command, in the order of 30_encoding.md R74. -/

namespace Sys2Proof.Machine

def exec (i : Instr) (s : State) : Host.Outcome State Fault Refusal :=
  match i with
  | .init => Sys2Proof.Machine.execInit s
  | .count len => Sys2Proof.Machine.execCount len s
  | .ldb pos byte => Sys2Proof.Machine.execLdb pos byte s
  | .ldw wordIndex word => Sys2Proof.Machine.execLdw wordIndex word s
  | .xform => Sys2Proof.Machine.execXform s
  | .rdacc k => Sys2Proof.Machine.execRdacc k s
  | .rddg k => Sys2Proof.Machine.execRddg k s
  | .rdcnt k => Sys2Proof.Machine.execRdcnt k s
  | .rdstat => Sys2Proof.Machine.execRdstat s
  | .scrub => Sys2Proof.Machine.execScrub s
  | .wracc k word => Sys2Proof.Machine.execWracc k word s
  | .wrcnt k word => Sys2Proof.Machine.execWrcnt k word s

end Sys2Proof.Machine
end

