-- ==== Sys2Proof/Machine/Command.lean ====
section
/-! DEFINITION. One command word performed: decoded, rejected or executed (60_exceptions.md R236), and how a word
reaches the command port. -/

namespace Sys2Proof.Machine

/-- Perform one command word.  The two refusals of the decoder come first; the checks that read the state are in the
meanings (R236, R237). -/
def perform (w : CmdWord) (s : State) : Host.Outcome State Fault Refusal :=
  match decode w with
  | .illegal => s.reject .illegal
  | .outOfBounds => s.reject .bounds
  | .command i => exec i s

/-- One input taken: a command is performed, a reset puts the core in its reset state (R236, 70_reset_and_hazards.md R260). -/
def takeInput (e : Input) (s : State) : Host.Outcome State Fault Refusal :=
  match e with
  | .cmd w => perform w s
  | .reset => .next s.resetEvent

/-- The state in which the host presents the word `w` next, before all else that it will present (log entry 7). -/
def State.present (s : State) (w : CmdWord) : State := { s with input := .cmd w :: s.input }

end Sys2Proof.Machine
end

