-- ==== Sys2Proof/Machine/Step.lean ====
section
/-! DEFINITION. One step of the machine: the next thing that the host or the environment presents is taken; where
nothing is presented the core does nothing (20_memory.md R60; 70_reset_and_hazards.md R264; log entry 1). -/

namespace Sys2Proof.Machine

/-- One step. -/
def step (s : State) : Host.Outcome State Fault Refusal :=
  match s.input with
  | [] => .next s
  | e :: rest => takeInput e { s with input := rest }

/-- `s` with the command of the table word `w` presented next (log entry 7); a number that is no command word leaves
`s` as it is. -/
def State.withFetchWord (s : State) (nbits w : Nat) : State :=
  match tableWord nbits w with
  | none => s
  | some c => s.present c

end Sys2Proof.Machine
end

