-- ==== Sys2Proof/Machine/HostSequences.lean ====
section
/-! DEFINITION. The host's side: the sequences UPDATE, FINALIZE and HASH over the core's commands, the rendering HEX,
the message digest as a mathematical function, and the listing syntax (45_host_sequences.md R200 to R218;
30_encoding.md R80, R81).  None of it is part of the core: it is what the host presents and reads (00_scope.md R5). -/

namespace Sys2Proof.Machine

/-- Go on with the state that a command leaves. -/
def andThen {α : Type} (o : Host.Outcome State Fault Refusal) (f : State → Host.Outcome α Fault Refusal) :
    Host.Outcome α Fault Refusal :=
  match o with
  | .next s => f s
  | .fault r => .fault r
  | .refused r => .refused r

/-- Commands issued in order on the one port, nothing in between (R200). -/
def issueAll : List Instr → State → Host.Outcome State Fault Refusal
  | [], s => .next s
  | i :: rest, s => andThen (exec i s) (issueAll rest)

/-- The data of the response to the last command (30_encoding.md R72); 0 before any response. -/
def lastData (s : State) : Word :=
  match s.rsps with
  | [] => 0
  | r :: _ => rspData r

/-- `st[21:16]`, the INDEX field of a status word (10_state.md R30, R201). -/
def statusIndex (st : Word) : Nat := (st.extractLsb' 16 6).toNat

/-! ### UPDATE -/

/-- `LDB pos+q, m[q]` for the bytes of `m` in order (R201). -/
def loadFrom (pos : Nat) : List Byte → List Instr
  | [] => []
  | b :: m => .ldb (BitVec.ofNat 8 pos) b :: loadFrom (pos + 1) m

/-- Steps 4 and 5 of UPDATE: whole windows of 64 bytes, each loaded and transformed, then the remaining bytes at
positions 0 upward (R201).  The first argument bounds the number of windows. -/
def loadWindows : Nat → List Byte → List Instr
  | 0, m => loadFrom 0 m
  | fuel + 1, m =>
    if 64 ≤ m.length then loadFrom 0 (m.take 64) ++ .xform :: loadWindows fuel (m.drop 64)
    else loadFrom 0 m

/-- Steps 3 to 5 of UPDATE, with `index` bytes buffered: fill the block and transform it, or only append (R201;
90_conflicts.md C3). -/
def feedCommands (index : Nat) (m : List Byte) : List Instr :=
  if 64 - index ≤ m.length then
    loadFrom index (m.take (64 - index)) ++ .xform :: loadWindows m.length (m.drop (64 - index))
  else loadFrom index m

/-- The commands of `UPDATE m` after its RDSTAT: COUNT, then the loads and transforms (R201). -/
def updateCommands (index : Nat) (m : List Byte) : List Instr :=
  .count (BitVec.ofNat 32 m.length) :: feedCommands index m

/-- `UPDATE m`, for fewer than 2^32 bytes (R203): the index is read before the count is advanced (R201, R202). -/
def runUpdate (m : List Byte) (s : State) : Host.Outcome State Fault Refusal :=
  andThen (exec .rdstat s) fun s' => issueAll (updateCommands (statusIndex (lastData s')) m) s'

/-- `UPDATE p1 ; UPDATE p2 ; ...` (R205). -/
def runUpdates : List (List Byte) → State → Host.Outcome State Fault Refusal
  | [], s => .next s
  | p :: rest, s => andThen (runUpdate p s) (runUpdates rest)

/-! ### FINALIZE and HASH -/

/-- `pad_len` (R210, R211). -/
def padLength (index : Nat) : Nat := if index < 56 then 56 - index else 120 - index

/-- The padding: one `0x80`, then zeros, `pad_len` bytes in all (R210). -/
def padding (index : Nat) : List Byte := 0x80 :: List.replicate (padLength index - 1) 0

/-- The length footer: the counter's 8 bytes, low word first, each word little-endian (R210, R212). -/
def footer (lo hi : Word) : List Byte :=
  [byteOf lo 0, byteOf lo 1, byteOf lo 2, byteOf lo 3, byteOf hi 0, byteOf hi 1, byteOf hi 2, byteOf hi 3]

/-- The sixteen RDDG commands (R210 step 5). -/
def readDigestCommands : List Instr := (List.finRange 16).map fun k => .rddg (BitVec.ofNat 8 k.val)

/-- The bytes that the last sixteen responses carry, in the order of the commands. -/
def lastSixteenBytes (s : State) : List Byte :=
  ((s.rsps.take 16).reverse).map fun r => (rspData r).extractLsb' 0 8

/-- The last command of FINALIZE, where the host issues it: "whether the host issues SCRUB is the host's choice", and a
parameter of a host model (93_implementation_defined.md U1; 70_reset_and_hazards.md R267). -/
def scrubCommands (scrub : Bool) : List Instr := if scrub then [.scrub] else []

/-- `FINALIZE`: the counter captured, the padding, the footer, the read-out, and SCRUB as the parameter says (R210, with
`scrub = true` the expansion as R210 writes it; `scrub = false` is U1's FINALIZE without its last command); the state
after it and the digest that the host has read.
DESIGN CHOICE, unsafe, log entry 9: this host looks at no response's status.  In IDLE its first RDCNT is rejected, as R216
says; what such a FINALIZE then hands back the spec does not say, and here the host goes on to the end and hands back the
data bytes of the rejections, sixteen zeros. -/
def runFinalize (scrub : Bool) (s : State) : Host.Outcome (State × List Byte) Fault Refusal :=
  andThen (exec (.rdcnt 0) s) fun s1 =>
  andThen (exec (.rdcnt 1) s1) fun s2 =>
  andThen (runUpdate (padding ((lastData s1).extractLsb' 3 6).toNat) s2) fun s3 =>
  andThen (runUpdate (footer (lastData s1) (lastData s2)) s3) fun s4 =>
  andThen (issueAll readDigestCommands s4) fun s5 =>
  andThen (issueAll (scrubCommands scrub) s5) fun s6 => .next (s6, lastSixteenBytes s5)

/-- The commands of FINALIZE as one list, for `index` bytes buffered and the captured counter `lo`, `hi`
(R210; the footer UPDATE starts at INDEX 56, R211). -/
def finalizeCommands (scrub : Bool) (index : Nat) (lo hi : Word) : List Instr :=
  [.rdcnt 0, .rdcnt 1] ++ (.rdstat :: updateCommands index (padding index)) ++
    (.rdstat :: updateCommands 56 (footer lo hi)) ++ readDigestCommands ++ scrubCommands scrub

/-- `HASH m` = INIT, UPDATE m, FINALIZE (R215), the last SCRUB as the parameter says (U1). -/
def runHash (scrub : Bool) (m : List Byte) (s : State) : Host.Outcome (State × List Byte) Fault Refusal :=
  andThen (exec .init s) fun s1 => andThen (runUpdate m s1) (runFinalize scrub)

/-- A message too long for one UPDATE is fed by several (R203): INIT, one UPDATE for each piece, FINALIZE. -/
def runHashPieces (scrub : Bool) (pieces : List (List Byte)) (s : State) :
    Host.Outcome (State × List Byte) Fault Refusal :=
  andThen (exec .init s) fun s1 => andThen (runUpdates pieces s1) (runFinalize scrub)

/-! ### The digest as a mathematical function -/

/-- `LE64(n)`: 8 bytes, least significant first, of `n` modulo 2^64 (R212, R215). -/
def le64 (n : Nat) : List Byte := (List.range 8).map fun i => BitVec.ofNat 8 (n / 2 ^ (8 * i))

/-- The padded message `P` (R215). -/
def paddedMessage (m : List Byte) : List Byte := m ++ padding (m.length % 64) ++ le64 (8 * m.length)

/-- The block that the first 64 bytes of a list make. -/
def blockOfBytes (m : List Byte) : Block := Vector.ofFn fun i => m.getD i.val 0

/-- `S_i = MD4T(S_(i-1), B_i)` over the first `n` blocks of a byte string (R215). -/
def iterateBlocks : Nat → Quad → List Byte → Quad
  | 0, acc, _ => acc
  | n + 1, acc, m => iterateBlocks n (md4t acc (blockOfBytes (m.take 64))) (m.drop 64)

/-- `HASH m` as a function of the message (R215). -/
def md4Digest (m : List Byte) : List Byte :=
  digestOf (iterateBlocks ((paddedMessage m).length / 64) iv (paddedMessage m))

/-! ### HEX and listings -/

/-- One hexadecimal digit, upper or lower case (R214). -/
def hexDigit (upper : Bool) (n : Nat) : Char :=
  if n < 10 then Char.ofNat (48 + n) else if upper then Char.ofNat (55 + n) else Char.ofNat (87 + n)

/-- `HEX digest`: two digits for each byte, the high nibble first, in array order; the case is the caller's choice (R214). -/
def hexChars (upper : Bool) (digest : List Byte) : List Char :=
  digest.flatMap fun b => [hexDigit upper (b.toNat / 16), hexDigit upper (b.toNat % 16)]

/-- The line of a command in a listing, numbers in decimal (30_encoding.md R80). -/
def listing : Instr → String
  | .init => "INIT"
  | .count len => "COUNT " ++ toString len.toNat
  | .ldb pos byte => "LDB " ++ toString pos.toNat ++ ", " ++ toString byte.toNat
  | .ldw wordIndex word => "LDW " ++ toString wordIndex.toNat ++ ", " ++ toString word.toNat
  | .xform => "XFORM"
  | .rdacc i => "RDACC " ++ toString i.toNat
  | .rddg k => "RDDG " ++ toString k.toNat
  | .rdcnt i => "RDCNT " ++ toString i.toNat
  | .rdstat => "RDSTAT"
  | .scrub => "SCRUB"
  | .wracc i word => "WRACC " ++ toString i.toNat ++ ", " ++ toString word.toNat
  | .wrcnt i word => "WRCNT " ++ toString i.toNat ++ ", " ++ toString word.toNat

end Sys2Proof.Machine
end

