-- ==== Sys2Proof/Safety.lean ====
section
/-! DEFINITION. The terms in which statements speak of the machine: the invariants of its state, the good response,
the rejected command, and two states that hold the same core. -/

namespace Sys2Proof.Machine

/-! ### Invariants -/

/-- The block buffer is in canonical form, and bit `i` of BLKV is 1 exactly when `BLK[i]` holds a value (10_state.md R26). -/
def State.MaskMatchesBlock (s : State) : Prop :=
  Memory.wf s.blk = true ∧ ∀ i : Fin 64, s.blkv.getLsbD i.val = (Memory.lookup s.blk i.val).isSome

/-- In IDLE, ACC, CNT and BLKV are zero (10_state.md R38). -/
def State.IdleErased (s : State) : Prop :=
  s.phase = .idle → s.acc = #v[0, 0, 0, 0] ∧ s.cnt = #v[0, 0] ∧ s.blkv = 0

/-- ERR holds 0 or one of the codes 1 to 4 (10_state.md R29, 60_exceptions.md R231). -/
def State.ErrLegal (s : State) : Prop := s.err.toNat ≤ 4

/-- The host-level invariant: the valid bytes are `BLK[0 .. INDEX-1]` (10_state.md R39).  The core does not enforce it. -/
def State.PrefixFilled (s : State) : Prop := ∀ i : Fin 64, s.blkv.getLsbD i.val = decide (i.val < s.index.toNat)

/-- The response word is that of a performed command, or of a rejected one with data 0 (30_encoding.md R72). -/
def LegalResponse (r : RspWord) : Prop :=
  rspStatus r = 0 ∨ ((∃ e : ErrCode, rspStatus r = e.code.setWidth 8) ∧ rspData r = 0)

/-! ### Comparing states -/

/-- The two states hold the same core: the whole tuple of 10_state.md R20. -/
def SameCore (s t : State) : Prop :=
  t.acc = s.acc ∧ t.cnt = s.cnt ∧ t.blk = s.blk ∧ t.blkv = s.blkv ∧ t.phase = s.phase ∧ t.err = s.err

/-- The outcome is the rejection of a command with error `e`: ERR takes the code if it was 0, the response is the code
with data 0, and nothing else changes (60_exceptions.md R236). -/
def RejectedWith (e : ErrCode) (s : State) (o : Host.Outcome State Fault Refusal) : Prop :=
  o = .next { s with
    err := if s.err = 0 then e.code else s.err
    rsps := rspWord (e.code.setWidth 8) 0 :: s.rsps }

/-! ### Runs -/

/-- The fold of the command port over a list of words (20_memory.md R60, 70_reset_and_hazards.md R270). -/
def performAll : List CmdWord → State → Host.Outcome State Fault Refusal
  | [], s => .next s
  | w :: rest, s => andThen (perform w s) (performAll rest)

/-- The state with another list of inputs at its port. -/
def State.withInput (s : State) (es : List Input) : State := { s with input := es }

/-- A run from `s` to `t` is good: every response it added has status OK and ERR is 0 at its end
(70_reset_and_hazards.md R270). -/
def GoodRun (s t : State) : Prop :=
  t.err = 0 ∧ ∃ given : List RspWord, t.rsps = given ++ s.rsps ∧ ∀ r ∈ given, rspStatus r = 0

/-! ### The other formulation of the transform -/

/-- One step with four role names in place of four registers: the target is the value in role `a`, and afterwards the
roles are renamed `(a, b, c, d) <- (d, a, b, c)` (43_transform.md R151). -/
def roleStep (x : Schedule) (r : Quad) (t : Fin 48) : Quad :=
  #v[r[3], rol (r[0] + (roundOf t).fn r[1] r[2] r[3] + x[wordIndexOf t] + (roundOf t).const) (rotateAmountOf t), r[1], r[2]]

end Sys2Proof.Machine
end

