-- ==== Sys2Proof/Certificates/Slice0/Obligations.lean ====
section
/-! DEFINITION. The statements about the MD4 core that the provers settle.  Each docstring names the rules of spec/
that the statement formalises; how a statement may lean on a choice of the model is said there too. -/

open Sys2Proof Sys2Proof.Machine

/-! ### The command word -/

/-- The encodings that 30_encoding.md R80 lists, and the nineteen words of 95_test_vectors.md V10, decode as listed. -/
def Obligations.ListedWordsDecodeAsListed : Prop :=
  decode 0x010000000000 = .command .init ∧
  decode 0x020000000038 = .command (.count 56) ∧
  decode 0x030500000061 = .command (.ldb 5 0x61) ∧
  decode 0x040080636261 = .command (.ldw 0 0x80636261) ∧
  decode 0x050000000000 = .command .xform ∧
  decode 0x060300000000 = .command (.rdacc 3) ∧
  decode 0x070F00000000 = .command (.rddg 15) ∧
  decode 0x080100000000 = .command (.rdcnt 1) ∧
  decode 0x090000000000 = .command .rdstat ∧
  decode 0x0A0000000000 = .command .scrub ∧
  decode 0x0B0067452301 = .command (.wracc 0 0x67452301) ∧
  decode 0x0C00FFFFFFF8 = .command (.wrcnt 0 0xFFFFFFF8) ∧
  decode 0x0200FFFFFFFF = .command (.count 0xFFFFFFFF) ∧
  decode 0x033F000000FF = .command (.ldb 63 0xFF) ∧
  decode 0x040FFFFFFFFF = .command (.ldw 15 0xFFFFFFFF) ∧
  decode 0x0B03FFFFFFFF = .command (.wracc 3 0xFFFFFFFF) ∧
  decode 0x0C01FFFFFFFF = .command (.wrcnt 1 0xFFFFFFFF) ∧
  decode 0x03FF00000000 = .outOfBounds ∧ decode 0x04FF00000000 = .outOfBounds ∧
  decode 0x0201FFFFFFFF = .illegal ∧ decode 0x090000000001 = .illegal ∧
  decode 0x0A8000000000 = .illegal ∧ decode 0x100000000000 = .illegal ∧ decode 0x800000000000 = .illegal

/-- Decoding the encoding of any command, every operand at every value of its field, gives that command back, and
gives OutOfBounds when its index is at or beyond the limit (R71, R73, R74, R75, R78). -/
def Obligations.EncodeThenDecodeGivesTheCommandBack : Prop :=
  ∀ i : Instr, decode (encode i) = if i.wellFormed then .command i else .outOfBounds

/-- A word that decodes to a command is that command's encoding, and the command is well formed: no word has two
meanings and no bit of a command word is ignored (R74, R76, R78). -/
def Obligations.DecodedWordIsTheEncodingOfItsCommand : Prop :=
  ∀ (w : CmdWord) (i : Instr), decode w = .command i → encode i = w ∧ i.wellFormed = true

/-- R76: a word is illegal exactly when its opcode is none of the twelve or a reserved bit of its format is 1; it then
matches no row of R74 and is rejected with ErrIllegal in every state. -/
def Obligations.IllegalExactlyOnUndefinedOpcodeOrReservedBit : Prop :=
  (∀ (op idx : BitVec 8) (data : Word), decode (cmdWord op idx data) = .illegal ↔
    (op.toNat = 0 ∨ 12 < op.toNat) ∨
    (op ∈ [0x01, 0x05, 0x09, 0x0A] ∧ (idx ≠ 0 ∨ data ≠ 0)) ∨
    (op = 0x02 ∧ idx ≠ 0) ∨
    (op ∈ [0x06, 0x07, 0x08] ∧ data ≠ 0) ∨
    (op = 0x03 ∧ data.extractLsb' 8 24 ≠ 0)) ∧
  (∀ w : CmdWord, decode w = .illegal ↔ ∀ m : Mnemonic, (opRow m).selects w = false) ∧
  (∀ (w : CmdWord) (s : State), decode w = .illegal → RejectedWith .illegal s (perform w s))

/-- No two rows of the opcode map match the same word (R74). -/
def Obligations.NoTwoRowsMatchOneWord : Prop :=
  ∀ (w : CmdWord) (m n : Mnemonic), (opRow m).selects w = true → (opRow n).selects w = true → m = n

/-- R75: a word of a selected row is OutOfBounds exactly when its index is at or beyond the row's limit, and is then
rejected with ErrBounds in every state; formats N and D have no limit. -/
def Obligations.OutOfBoundsExactlyAtTheIndexLimits : Prop :=
  (∀ (op idx : BitVec 8) (data : Word), decode (cmdWord op idx data) = .outOfBounds ↔
    (op = 0x03 ∧ data.extractLsb' 8 24 = 0 ∧ 64 ≤ idx.toNat) ∨
    (op = 0x04 ∧ 16 ≤ idx.toNat) ∨
    (op = 0x06 ∧ data = 0 ∧ 4 ≤ idx.toNat) ∨
    (op = 0x07 ∧ data = 0 ∧ 16 ≤ idx.toNat) ∨
    (op = 0x08 ∧ data = 0 ∧ 2 ≤ idx.toNat) ∨
    (op = 0x0B ∧ 4 ≤ idx.toNat) ∨
    (op = 0x0C ∧ 2 ≤ idx.toNat)) ∧
  (∀ (w : CmdWord) (s : State), decode w = .outOfBounds → RejectedWith .bounds s (perform w s))

/-! ### The step, the ports and reset -/

/-- A step takes the command word that is presented next and runs what it decodes to, on the state without that word:
the command by `exec`, an illegal word rejected with ErrIllegal, an index out of range with ErrBounds (R60, R236).
That inputs stand in a list of the state is the model's own form (log entry 1). -/
def Obligations.StepRunsTheDecodedCommand : Prop :=
  (∀ (s : State) (w : CmdWord) (rest : List Input), s.input = .cmd w :: rest →
    (∀ i, decode w = .command i → step s = exec i (s.withInput rest)) ∧
    (decode w = .illegal → RejectedWith .illegal (s.withInput rest) (step s)) ∧
    (decode w = .outOfBounds → RejectedWith .bounds (s.withInput rest) (step s))) ∧
  (∀ (s : State) (w : CmdWord), step (s.withFetchWord 48 w.toNat) = perform w s)

/-- While nothing is presented the core does nothing (D13; R264).  That a step is then a next state with nothing
changed is the model's own form (log entry 1). -/
def Obligations.StepWithNothingPresentedChangesNothing : Prop :=
  ∀ s : State, s.input = [] → step s = .next s

/-- A reset between two commands puts every register at its reset value, ERR among them, and keeps nothing of the
interrupted work (R37, R260).  That the ports keep what is outside the core is the model's own form (log entries 1, 2). -/
def Obligations.ResetEventRestoresEveryRegister : Prop :=
  ∀ (s : State) (rest : List Input), s.input = .reset :: rest →
    step s = .next { acc := #v[0, 0, 0, 0], cnt := #v[0, 0], blk := [], blkv := 0, phase := .idle, err := 0,
                     input := rest, rsps := s.rsps }

/-- The state after reset: ACC, CNT and BLKV zero, no block byte with a value, IDLE, ERR 0 (R37, R260). -/
def Obligations.ResetStateIsZeroAndIdle : Prop :=
  State.reset.acc = #v[0, 0, 0, 0] ∧ State.reset.cnt = #v[0, 0] ∧ State.reset.blkv = 0 ∧
  (∀ k, Memory.lookup State.reset.blk k = none) ∧ State.reset.phase = .idle ∧ State.reset.err = 0 ∧
  State.reset.status = 0

/-- The core never stops: from every state a step answers a next state (R264, R268). -/
def Obligations.StepAlwaysAnswersANextState : Prop :=
  ∀ s : State, ∃ t : State, step s = .next t

/-- Every command word gets exactly one response, whose status is OK or an error code with data 0, and takes exactly
one input (R72, R231). -/
def Obligations.EveryCommandGetsExactlyOneResponse : Prop :=
  ∀ (s : State) (w : CmdWord) (rest : List Input), s.input = .cmd w :: rest →
    ∃ (t : State) (r : RspWord), step s = .next t ∧ t.input = rest ∧ t.rsps = r :: s.rsps ∧ LegalResponse r

/-- A run over the words that the host presents is the fold of the command port over them, in the order presented,
whatever is presented after them (R60, R270). -/
def Obligations.RunIsTheFoldOverThePresentedWords : Prop :=
  ∀ (ws : List CmdWord) (s : State) (rest : List Input),
    Host.Core.run Sys2Proof.core ws.length (s.withInput (ws.map .cmd ++ rest)) = performAll ws (s.withInput rest)

/-! ### Errors -/

/-- R237: exactly one error is reported, the first in the order ErrIllegal, ErrBounds, ErrState, ErrIncomplete; a word
with none of them is performed, answers OK and leaves ERR; with the rule's four consequences. -/
def Obligations.ErrorsAreReportedInTheirPriority : Prop :=
  (∀ (w : CmdWord) (s : State),
    (decode w = .illegal → RejectedWith .illegal s (perform w s)) ∧
    (decode w = .outOfBounds → RejectedWith .bounds s (perform w s)) ∧
    (∀ i, decode w = .command i →
      (i ∉ [.init, .scrub, .rdstat] → s.phase = .idle → RejectedWith .state s (perform w s)) ∧
      (i = .xform → s.phase = .active → s.blkv ≠ BitVec.allOnes 64 → RejectedWith .incomplete s (perform w s)) ∧
      (i ∈ [.init, .scrub, .rdstat] ∨ (s.phase = .active ∧ (i = .xform → s.blkv = BitVec.allOnes 64)) →
        ∃ (t : State) (v : Word), perform w s = .next t ∧ t.err = s.err ∧ t.rsps = rspWord 0 v :: s.rsps))) ∧
  (∀ s : State, s.phase = .idle →
    RejectedWith .bounds s (perform 0x034000000000 s) ∧ RejectedWith .illegal s (perform 0x050100000000 s) ∧
    RejectedWith .state s (perform 0x050000000000 s) ∧ RejectedWith .illegal s (perform 0x034000000100 s))

/-- After one command, ERR is the code of its response if ERR was 0, and else what it was: only a rejected command
writes ERR, and only when it is 0 (R29, R236). -/
def Obligations.ErrLatchesTheCodeOfTheFirstRejection : Prop :=
  ∀ (w : CmdWord) (s t : State), perform w s = .next t →
    ∃ r : RspWord, t.rsps = r :: s.rsps ∧ t.err = if s.err = 0 then (rspStatus r).setWidth 4 else s.err

/-- Once set, ERR keeps its code over any number of steps in which no reset is presented (R29, R238). -/
def Obligations.RecordedErrorStaysUntilReset : Prop :=
  ∀ (k : Nat) (s t : State), s.err ≠ 0 → Input.reset ∉ s.input →
    Host.Core.run Sys2Proof.core k s = .next t → t.err = s.err

/-- From ERR = 0, ERR is 0 at the end of a run exactly when every response of the run was OK (R29, R270). -/
def Obligations.ErrTellsWhetherEveryResponseWasOk : Prop :=
  ∀ (ws : List CmdWord) (s t : State), s.err = 0 → performAll ws s = .next t →
    ∃ given : List RspWord, t.rsps = given ++ s.rsps ∧ given.length = ws.length ∧
      (t.err = 0 ↔ ∀ r ∈ given, rspStatus r = 0)

/-! ### Invariants of every step -/

/-- Every step keeps the block buffer canonical and BLKV in agreement with it: bit `i` is 1 exactly when `BLK[i]` holds
a value (R25, R26). -/
def Obligations.StepKeepsBlockMaskInAgreement : Prop :=
  ∀ s t : State, s.MaskMatchesBlock → step s = .next t → t.MaskMatchesBlock

/-- Every step keeps the invariant of R38: in IDLE, ACC, CNT and BLKV are zero. -/
def Obligations.StepKeepsIdleStateErased : Prop :=
  ∀ s t : State, s.IdleErased → step s = .next t → t.IdleErased

/-- Every step keeps ERR among 0 and the codes 1 to 4 (R29, R231). -/
def Obligations.StepKeepsErrAmongItsCodes : Prop :=
  ∀ s t : State, s.ErrLegal → step s = .next t → t.ErrLegal

/-- The reset state meets the three invariants (R26, R29, R37, R38). -/
def Obligations.ResetMeetsTheInvariants : Prop :=
  State.reset.MaskMatchesBlock ∧ State.reset.IdleErased ∧ State.reset.ErrLegal

/-- No byte without a value is ever read: where BLKV agrees with the block, the block that a performed XFORM reads
holds a value at each of its 64 indices, and that value is the byte read (R25, R26, R58). -/
def Obligations.TransformReadsOnlyBytesThatHoldValues : Prop :=
  ∀ s : State, s.MaskMatchesBlock → s.blkv = BitVec.allOnes 64 →
    ∀ k : Fin 64, Memory.lookup s.blk k.val = some s.blockBytes[k]

/-! ### Whole-machine rules -/

/-- R103: the phase after a command, for every command in both phases, a rejected one included; in IDLE every command
but INIT, SCRUB and RDSTAT is rejected with ErrState; a reset gives IDLE. -/
def Obligations.PhaseFollowsTheTransitionTable : Prop :=
  (∀ (i : Instr) (s : State), ∃ t : State, exec i s = .next t ∧
    t.phase = if i = .init then .active else if i = .scrub then .idle else s.phase) ∧
  (∀ (i : Instr) (s : State), i.wellFormed = true → i ∉ [.init, .scrub, .rdstat] → s.phase = .idle →
    RejectedWith .state s (exec i s)) ∧
  (∀ (i : Instr) (s : State), i.wellFormed = true → (i = .xform → s.blkv = BitVec.allOnes 64) →
    (s.phase = .active ∨ i ∈ [.init, .scrub, .rdstat]) →
    ∃ (t : State) (v : Word), exec i s = .next t ∧ t.rsps = rspWord 0 v :: s.rsps) ∧
  (∀ s : State, ∃ t, takeInput .reset s = .next t ∧ t.phase = .idle)

/-- The writes of the access matrix: which command may change which register, and ERR only by a rejection (R32). -/
def Obligations.WritesFollowTheAccessMatrix : Prop :=
  ∀ (i : Instr) (s t : State), exec i s = .next t →
    (t.acc ≠ s.acc → i = .init ∨ i = .xform ∨ i = .scrub ∨ ∃ k v, i = .wracc k v) ∧
    (t.cnt ≠ s.cnt → i = .init ∨ i = .scrub ∨ (∃ n, i = .count n) ∨ ∃ k v, i = .wrcnt k v) ∧
    (t.blk ≠ s.blk ∨ t.blkv ≠ s.blkv →
      i = .init ∨ i = .xform ∨ i = .scrub ∨ (∃ p b, i = .ldb p b) ∨ ∃ j v, i = .ldw j v) ∧
    (t.phase ≠ s.phase → i = .init ∨ i = .scrub) ∧
    (t.err ≠ s.err → s.err = 0 ∧ t.acc = s.acc ∧ t.cnt = s.cnt ∧ t.blk = s.blk ∧ t.blkv = s.blkv ∧ t.phase = s.phase) ∧
    t.input = s.input

/-- No command but XFORM reads a block byte: with other bytes in the block, every other command answers the same and
leaves every register but the block the same (R25, R32). -/
def Obligations.OnlyXformReadsTheBlock : Prop :=
  ∀ (i : Instr) (s t : State) (cells : List Host.Cell), i ≠ .xform → exec i s = .next t →
    ∃ cells', exec i { s with blk := cells } = .next { t with blk := cells' }

/-- COUNT, LDB, LDW, RDCNT, WRCNT and RDSTAT neither read nor write ACC (R21), and XFORM, LDB and LDW neither read nor
write CNT (R23): with another value there, the command does the same and that value stays. -/
def Obligations.CommandsIgnoreTheRegistersTheyDoNotAccess : Prop :=
  (∀ (i : Instr) (s t : State) (a : Quad),
    ((∃ n, i = .count n) ∨ (∃ p b, i = .ldb p b) ∨ (∃ j v, i = .ldw j v) ∨ (∃ k, i = .rdcnt k) ∨
      (∃ k v, i = .wrcnt k v) ∨ i = .rdstat) →
    exec i s = .next t → exec i { s with acc := a } = .next { t with acc := a }) ∧
  (∀ (i : Instr) (s t : State) (c : Vector Word 2),
    (i = .xform ∨ (∃ p b, i = .ldb p b) ∨ (∃ j v, i = .ldw j v)) →
    exec i s = .next t → exec i { s with cnt := c } = .next { t with cnt := c })

/-! ### INIT, SCRUB, RDSTAT -/

/-- R100: INIT, its encoding, its effect in both phases with everything else unchanged, its repetition, and the
rule's example. -/
def Obligations.InitStartsAFreshDigest : Prop :=
  decode 0x010000000000 = .command .init ∧
  (∀ (idx : BitVec 8) (data : Word), idx ≠ 0 ∨ data ≠ 0 → decode (cmdWord 0x01 idx data) = .illegal) ∧
  (∀ s : State, exec .init s = .next { s with
    acc := #v[0x67452301, 0xEFCDAB89, 0x98BADCFE, 0x10325476], cnt := #v[0, 0], blk := [], blkv := 0,
    phase := .active, rsps := rspWord 0 0 :: s.rsps }) ∧
  (∀ s t u : State, exec .init s = .next t → exec .init t = .next u → SameCore t u) ∧
  (∃ t, issueAll [.init, .rdstat] State.reset = .next t ∧ t.rsps = [rspWord 0 0x00000001, rspWord 0 0])

/-- SCRUB: its encoding, its effect in both phases with everything else unchanged, that it changes no core state of an
erased IDLE core, and that the digest is then gone (R37, R101). -/
def Obligations.ScrubErasesAndGoesIdle : Prop :=
  decode 0x0A0000000000 = .command .scrub ∧
  (∀ (idx : BitVec 8) (data : Word), idx ≠ 0 ∨ data ≠ 0 → decode (cmdWord 0x0A idx data) = .illegal) ∧
  (∀ s : State, exec .scrub s = .next { s with
    acc := #v[0, 0, 0, 0], cnt := #v[0, 0], blk := [], blkv := 0, phase := .idle, rsps := rspWord 0 0 :: s.rsps }) ∧
  (∀ s : State, s.phase = .idle → s.IdleErased → s.MaskMatchesBlock →
    ∃ t, exec .scrub s = .next t ∧ SameCore s t) ∧
  (∀ (s t : State) (k : BitVec 8), exec .scrub s = .next t → k.toNat < 16 → RejectedWith .state t (exec (.rddg k) t))

/-- R102: RDSTAT, its encoding, every field of the word it answers, that it changes no state in either phase, the
fields of an erased IDLE core, and the rule's example. -/
def Obligations.StatusWordShowsTheStateFields : Prop :=
  decode 0x090000000000 = .command .rdstat ∧
  (∀ (idx : BitVec 8) (data : Word), idx ≠ 0 ∨ data ≠ 0 → decode (cmdWord 0x09 idx data) = .illegal) ∧
  (∀ s : State, ∃ v : Word, exec .rdstat s = .next { s with rsps := rspWord 0 v :: s.rsps } ∧
    v.getLsbD 0 = decide (s.phase = .active) ∧ v.extractLsb' 1 3 = 0 ∧ v.extractLsb' 4 4 = s.err ∧
    (v.extractLsb' 8 7).toNat = ((List.range 64).filter fun k => s.blkv.getLsbD k).length ∧
    v.getLsbD 15 = decide (s.blkv = 0xFFFFFFFFFFFFFFFF) ∧ v.extractLsb' 16 6 = s.cnt[0].extractLsb' 3 6 ∧
    v.extractLsb' 22 10 = 0 ∧
    (s.blkv = 0xFFFFFFFFFFFFFFFF → v.extractLsb' 8 8 = 0xC0) ∧
    (s.phase = .idle → s.IdleErased → v.extractLsb' 8 14 = 0)) ∧
  (∃ t, issueAll [.init, .count 3, .ldb 0 0x61, .ldb 1 0x62, .ldb 2 0x63, .rdstat] State.reset = .next t ∧
    lastData t = 0x00030301)

/-- R27: FILL is the number of valid bits, from 0 to 64; FULL says that it is 64; and where the valid bytes are the
first INDEX bytes, FILL is INDEX. -/
def Obligations.FillCountsTheValidBytes : Prop :=
  (∀ s : State, s.fill ≤ 64 ∧ (s.full = true ↔ s.fill = 64)) ∧
  (∀ s : State, s.PrefixFilled → s.fill = s.index.toNat)

/-! ### COUNT -/

/-- R120: COUNT, its encoding, the two counter words in the rule's own arithmetic, the other form of the carry, the
rejection in IDLE, the corner cases and the example. -/
def Obligations.CountAddsTheLengthByWordsAndCarry : Prop :=
  (∀ len : Word, decode (cmdWord 0x02 0 len) = .command (.count len)) ∧
  (∀ (idx : BitVec 8) (len : Word), idx ≠ 0 → decode (cmdWord 0x02 idx len) = .illegal) ∧
  (∀ (len : Word) (s : State), s.phase = .idle → RejectedWith .state s (exec (.count len) s)) ∧
  (∀ (len : Word) (s : State), s.phase = .active → ∃ lo hi : Word,
    exec (.count len) s = .next { s with cnt := #v[lo, hi], rsps := rspWord 0 0 :: s.rsps } ∧
    lo.toNat = (s.cnt[0].toNat + (len.toNat * 8) % 2 ^ 32) % 2 ^ 32 ∧
    hi.toNat = (s.cnt[1].toNat + (s.cnt[0].toNat + (len.toNat * 8) % 2 ^ 32) / 2 ^ 32 + len.toNat / 2 ^ 29) % 2 ^ 32 ∧
    (lo.toNat < (len.toNat * 8) % 2 ^ 32 ↔ (s.cnt[0].toNat + (len.toNat * 8) % 2 ^ 32) / 2 ^ 32 = 1)) ∧
  (∀ s : State, s.phase = .active → s.cnt = #v[0xFFFFFFF8, 0] →
    exec (.count 1) s = .next { s with cnt := #v[0, 1], rsps := rspWord 0 0 :: s.rsps })

/-- R121: COUNT is a 64-bit addition of eight times the length, modulo 2^64. -/
def Obligations.CountIsASixtyFourBitAddition : Prop :=
  ∀ (len : Word) (s : State), s.phase = .active →
    ∃ t, exec (.count len) s = .next t ∧ t.bitCount = (s.bitCount + 8 * len.toNat) % 2 ^ 64

/-- COUNT moves INDEX by the length modulo 64 and carries the three low bits of the counter along unchanged
(R122, R24, R184). -/
def Obligations.CountMovesTheIndexByTheLength : Prop :=
  ∀ (len : Word) (s : State), s.phase = .active →
    ∃ t, exec (.count len) s = .next t ∧ t.index.toNat = (s.index.toNat + len.toNat) % 64 ∧
      t.cnt[0].extractLsb' 0 3 = s.cnt[0].extractLsb' 0 3

/-- R123: COUNT 0 changes no core state and answers OK in ACTIVE, and is rejected in IDLE. -/
def Obligations.CountZeroChangesNothing : Prop :=
  (∀ s : State, s.phase = .active → exec (.count 0) s = .next { s with rsps := rspWord 0 0 :: s.rsps }) ∧
  (∀ s : State, s.phase = .idle → RejectedWith .state s (exec (.count 0) s))

/-! ### LDB and LDW -/

/-- R130: LDB, its encoding, its errors in their order, the one byte and the one valid bit that it writes, an old value
replaced, and everything else unchanged. -/
def Obligations.LoadByteWritesOneBlockByte : Prop :=
  (∀ (pos byte : BitVec 8), pos.toNat < 64 → decode (cmdWord 0x03 pos (byte.setWidth 32)) = .command (.ldb pos byte)) ∧
  (∀ (pos : BitVec 8) (data : Word), data.extractLsb' 8 24 ≠ 0 → decode (cmdWord 0x03 pos data) = .illegal) ∧
  (∀ (pos byte : BitVec 8), 64 ≤ pos.toNat → decode (cmdWord 0x03 pos (byte.setWidth 32)) = .outOfBounds) ∧
  (∀ (pos byte : BitVec 8) (s : State), 64 ≤ pos.toNat → RejectedWith .bounds s (exec (.ldb pos byte) s)) ∧
  (∀ (pos byte : BitVec 8) (s : State), pos.toNat < 64 → s.phase = .idle →
    RejectedWith .state s (exec (.ldb pos byte) s)) ∧
  (∀ (pos byte : BitVec 8) (s : State), pos.toNat < 64 → s.phase = .active →
    ∃ t, exec (.ldb pos byte) s = .next t ∧
      Memory.lookup t.blk pos.toNat = some byte ∧
      (∀ a, a ≠ pos.toNat → Memory.lookup t.blk a = Memory.lookup s.blk a) ∧
      (∀ a, a < 64 → t.blkv.getLsbD a = (decide (a = pos.toNat) || s.blkv.getLsbD a)) ∧
      t.acc = s.acc ∧ t.cnt = s.cnt ∧ t.phase = s.phase ∧ t.err = s.err ∧ t.input = s.input ∧
      t.rsps = rspWord 0 0 :: s.rsps) ∧
  (∀ s : State, s.phase = .active → s.blkv = 0 →
    ∃ t, exec (.ldb 5 0x61) s = .next t ∧ t.blkv = 0x20 ∧ t.fill = 1)

/-- R131: LDW, its encoding, its errors in their order, the four bytes and the four valid bits that it writes, at the
indices `4j + k`, the least significant byte first, and everything else unchanged. -/
def Obligations.LoadWordWritesFourBlockBytes : Prop :=
  (∀ (j : BitVec 8) (v : Word), j.toNat < 16 → decode (cmdWord 0x04 j v) = .command (.ldw j v)) ∧
  (∀ (j : BitVec 8) (v : Word), 16 ≤ j.toNat → decode (cmdWord 0x04 j v) = .outOfBounds) ∧
  (∀ (j : BitVec 8) (v : Word) (s : State), 16 ≤ j.toNat → RejectedWith .bounds s (exec (.ldw j v) s)) ∧
  (∀ (j : BitVec 8) (v : Word) (s : State), j.toNat < 16 → s.phase = .idle → RejectedWith .state s (exec (.ldw j v) s)) ∧
  (∀ (j : BitVec 8) (v : Word) (s : State), j.toNat < 16 → s.phase = .active →
    ∃ t, exec (.ldw j v) s = .next t ∧
      Memory.lookup t.blk (4 * j.toNat) = some (v.extractLsb' 0 8) ∧
      Memory.lookup t.blk (4 * j.toNat + 1) = some (v.extractLsb' 8 8) ∧
      Memory.lookup t.blk (4 * j.toNat + 2) = some (v.extractLsb' 16 8) ∧
      Memory.lookup t.blk (4 * j.toNat + 3) = some (v.extractLsb' 24 8) ∧
      (∀ a, a / 4 ≠ j.toNat → Memory.lookup t.blk a = Memory.lookup s.blk a) ∧
      (∀ a, a < 64 → t.blkv.getLsbD a = (decide (a / 4 = j.toNat) || s.blkv.getLsbD a)) ∧
      t.acc = s.acc ∧ t.cnt = s.cnt ∧ t.phase = s.phase ∧ t.err = s.err ∧ t.input = s.input ∧
      t.rsps = rspWord 0 0 :: s.rsps)

/-- R132: LDW has exactly the effect on the core of the four LDBs of its bytes, in every state, with one response in
place of four. -/
def Obligations.LoadWordEqualsFourByteLoads : Prop :=
  ∀ (j : Fin 16) (v : Word) (s : State), ∃ t u : State,
    exec (.ldw (BitVec.ofNat 8 j.val) v) s = .next t ∧
    issueAll [.ldb (BitVec.ofNat 8 (4 * j.val)) (v.extractLsb' 0 8),
      .ldb (BitVec.ofNat 8 (4 * j.val + 1)) (v.extractLsb' 8 8),
      .ldb (BitVec.ofNat 8 (4 * j.val + 2)) (v.extractLsb' 16 8),
      .ldb (BitVec.ofNat 8 (4 * j.val + 3)) (v.extractLsb' 24 8)] s = .next u ∧
    SameCore t u ∧ t.rsps.length = s.rsps.length + 1 ∧ u.rsps.length = s.rsps.length + 4

/-- What the transform then sees: LDW `j`, `v` makes message word `j` equal to `v`, LDB at `i` makes byte `i mod 4` of
word `i div 4` equal to its byte, and all other words and bytes stay (R52, R53, R54).  For a position whose byte holds no
value the spec gives no value and no read (R58): that it "stays" there is the model's choice, one free value for each
index (log entry 3). -/
def Obligations.LoadsPlaceTheMessageWords : Prop :=
  (∀ (j : Fin 16) (v : Word) (s : State), s.phase = .active →
    ∃ t, exec (.ldw (BitVec.ofNat 8 j.val) v) s = .next t ∧
      ∀ k : Fin 16, (messageWords t.blockBytes)[k] = if k = j then v else (messageWords s.blockBytes)[k]) ∧
  (∀ (i : Fin 64) (b : Byte) (s : State), s.phase = .active →
    ∃ t, exec (.ldb (BitVec.ofNat 8 i.val) b) s = .next t ∧
      ∀ (k : Fin 16) (q : Fin 4), byteOf (messageWords t.blockBytes)[k] q =
        if 4 * k.val + q.val = i.val then b else byteOf (messageWords s.blockBytes)[k] q)

/-! ### XFORM -/

/-- R53: each message word is the little-endian number of its four block bytes, with the rule's example. -/
def Obligations.MessageWordsAreLittleEndian : Prop :=
  (∀ (b : Block) (i : Fin 16), (messageWords b)[i].toNat =
    b[4 * i.val].toNat + b[4 * i.val + 1].toNat * 2 ^ 8 + b[4 * i.val + 2].toNat * 2 ^ 16 +
      b[4 * i.val + 3].toNat * 2 ^ 24) ∧
  (∀ b : Block, b[0] = 0x61 → b[1] = 0x62 → b[2] = 0x63 → b[3] = 0x80 → (messageWords b)[0] = 0x80636261)

/-- The complete 48-row schedule of R147: the target register, the message word, the rotation amount, the constant and
the round function of every step, F in round 1, G in round 2, H in round 3 (R143 to R145, R148 to R150). -/
def Obligations.ScheduleIsTheTableOfTheSpec : Prop :=
  ((List.finRange 48).map fun t => (targetOf t).val) = (List.replicate 12 [0, 3, 2, 1]).flatten ∧
  ((List.finRange 48).map fun t => (wordIndexOf t).val) =
    [0, 1, 2, 3, 4, 5, 6, 7, 8, 9, 10, 11, 12, 13, 14, 15,
     0, 4, 8, 12, 1, 5, 9, 13, 2, 6, 10, 14, 3, 7, 11, 15,
     0, 8, 4, 12, 2, 10, 6, 14, 1, 9, 5, 13, 3, 11, 7, 15] ∧
  ((List.finRange 48).map rotateAmountOf) =
    (List.replicate 4 [3, 7, 11, 19]).flatten ++ (List.replicate 4 [3, 5, 9, 13]).flatten ++
      (List.replicate 4 [3, 9, 11, 15]).flatten ∧
  ((List.finRange 48).map fun t => (roundOf t).const) =
    List.replicate 16 0 ++ List.replicate 16 0x5A827999 ++ List.replicate 16 0x6ED9EBA1 ∧
  (∀ (t : Fin 48) (x y z : Word), (roundOf t).fn x y z =
    if t.val < 16 then (x &&& y) ||| (~~~x &&& z)
    else if t.val < 32 then (x &&& y) ||| (x &&& z) ||| (y &&& z)
    else x ^^^ y ^^^ z)

/-- The round functions bit by bit (choice, majority, parity), and the other forms of F and G (R143, R144, R145, R155). -/
def Obligations.RoundFunctionsBitByBit : Prop :=
  (∀ (x y z : Word) (i : Nat), i < 32 →
    (roundF x y z).getLsbD i = (if x.getLsbD i then y.getLsbD i else z.getLsbD i) ∧
    (roundG x y z).getLsbD i = decide (2 ≤ (x.getLsbD i).toNat + (y.getLsbD i).toNat + (z.getLsbD i).toNat) ∧
    (roundH x y z).getLsbD i = decide (((x.getLsbD i).toNat + (y.getLsbD i).toNat + (z.getLsbD i).toNat) % 2 = 1)) ∧
  (∀ x y z : Word, roundF x y z = z ^^^ (x &&& (y ^^^ z)) ∧ roundG x y z = (x &&& y) ||| (z &&& (x ||| y)))

/-- A step writes its target register and no other: the target `(4 - (t mod 4)) mod 4` takes the rotated four-term sum
over the three registers that follow it cyclically (R151), and the rotation by 1 to 31 is that of R146, bits that leave at
the top entering at the bottom. -/
def Obligations.TransformStepWritesOnlyItsTarget : Prop :=
  (∀ (x : Schedule) (wk : Quad) (t : Fin 48) (j : Fin 4),
    (transformStep x wk t)[j] =
      if j.val = (4 - t.val % 4) % 4 then
        rol (wk[j] + (roundOf t).fn wk[j + 1] wk[j + 2] wk[j + 3] + x[wordIndexOf t] + (roundOf t).const) (rotateAmountOf t)
      else wk[j]) ∧
  (∀ (v : Word) (n : Nat), 1 ≤ n → n ≤ 31 →
    (rol v n).toNat = (v.toNat * 2 ^ n) % 2 ^ 32 + v.toNat / 2 ^ (32 - n) ∧
    ∀ i, i < 32 → (rol v n).getLsbD ((i + n) % 32) = v.getLsbD i)

/-- The two formulations of the 48 steps agree: four registers with a moving target, and four role names renamed
`(a, b, c, d) <- (d, a, b, c)` after each step (R151). -/
def Obligations.RoleRenamingGivesTheSameTransform : Prop :=
  ∀ (x : Schedule) (wk : Quad), (List.finRange 48).foldl (roleStep x) wk = transformSteps x wk

/-- R140: XFORM, its encoding, its errors in their order, the accumulator after it (the 48 steps from ACC in order,
then the feed-forward), the block consumed, everything else unchanged, a second XFORM rejected, and the example. -/
def Obligations.XformTransformsAndConsumesTheBlock : Prop :=
  decode 0x050000000000 = .command .xform ∧
  (∀ (idx : BitVec 8) (data : Word), idx ≠ 0 ∨ data ≠ 0 → decode (cmdWord 0x05 idx data) = .illegal) ∧
  (∀ s : State, s.phase = .idle → RejectedWith .state s (exec .xform s)) ∧
  (∀ s : State, s.phase = .active → s.blkv ≠ BitVec.allOnes 64 → RejectedWith .incomplete s (exec .xform s)) ∧
  (∀ s : State, s.phase = .active → s.blkv = BitVec.allOnes 64 → ∃ t, exec .xform s = .next t ∧
    t = { s with acc := md4t s.acc s.blockBytes, blk := [], blkv := 0, rsps := rspWord 0 0 :: s.rsps } ∧
    (∀ i : Fin 4, t.acc[i] =
      s.acc[i] + ((List.finRange 48).foldl (transformStep (messageWords s.blockBytes)) s.acc)[i]) ∧
    RejectedWith .incomplete t (exec .xform t)) ∧
  md4t #v[0x67452301, 0xEFCDAB89, 0x98BADCFE, 0x10325476] (blockOfBytes [0x80]) =
    #v[0xE0CFD631, 0x31E96AD1, 0xD7593CB7, 0xC089C0E0]

/-! ### Read-out and context -/

/-- R180: RDACC, its encoding, its errors in their order, and that it answers the word and changes nothing else. -/
def Obligations.ReadAccumulatorAnswersTheWord : Prop :=
  (∀ i : BitVec 8, i.toNat < 4 → decode (cmdWord 0x06 i 0) = .command (.rdacc i)) ∧
  (∀ (i : BitVec 8) (data : Word), data ≠ 0 → decode (cmdWord 0x06 i data) = .illegal) ∧
  (∀ (i : BitVec 8) (s : State), 4 ≤ i.toNat → RejectedWith .bounds s (exec (.rdacc i) s)) ∧
  (∀ (i : BitVec 8) (s : State), i.toNat < 4 → s.phase = .idle → RejectedWith .state s (exec (.rdacc i) s)) ∧
  (∀ (i : BitVec 8) (s : State) (h : i.toNat < 4), s.phase = .active →
    exec (.rdacc i) s = .next { s with rsps := rspWord 0 (s.acc[i.toNat]'h) :: s.rsps }) ∧
  (∀ s : State, ∃ t, issueAll [.init, .rdacc 1] s = .next t ∧ t.rsps.head? = some (rspWord 0 0xEFCDAB89))

/-- R181: RDDG, its encoding, its errors in their order, and that it answers the digest byte, zero-extended, and changes
nothing else; with the example. -/
def Obligations.ReadDigestAnswersTheByte : Prop :=
  (∀ k : BitVec 8, k.toNat < 16 → decode (cmdWord 0x07 k 0) = .command (.rddg k)) ∧
  (∀ (k : BitVec 8) (data : Word), data ≠ 0 → decode (cmdWord 0x07 k data) = .illegal) ∧
  (∀ (k : BitVec 8) (s : State), 16 ≤ k.toNat → RejectedWith .bounds s (exec (.rddg k) s)) ∧
  (∀ (k : BitVec 8) (s : State), k.toNat < 16 → s.phase = .idle → RejectedWith .state s (exec (.rddg k) s)) ∧
  (∀ (k : BitVec 8) (s : State) (h : k.toNat < 16), s.phase = .active → ∃ v : Word,
    exec (.rddg k) s = .next { s with rsps := rspWord 0 v :: s.rsps } ∧
    v.toNat = (s.acc[k.toNat / 4]'(by omega)).toNat / 2 ^ (8 * (k.toNat % 4)) % 2 ^ 8) ∧
  (∀ s : State, s.phase = .active → s.acc[0] = 0xE0CFD631 → ∃ t, issueAll [.rddg 0, .rddg 1, .rddg 2, .rddg 3] s = .next t ∧
    t.rsps = [rspWord 0 0xE0, rspWord 0 0xCF, rspWord 0 0xD6, rspWord 0 0x31] ++ s.rsps)

/-- R182: RDCNT, its encoding, its errors in their order, and that it answers the word and changes nothing else; with the
example. -/
def Obligations.ReadCounterAnswersTheWord : Prop :=
  (∀ i : BitVec 8, i.toNat < 2 → decode (cmdWord 0x08 i 0) = .command (.rdcnt i)) ∧
  (∀ (i : BitVec 8) (data : Word), data ≠ 0 → decode (cmdWord 0x08 i data) = .illegal) ∧
  (∀ (i : BitVec 8) (s : State), 2 ≤ i.toNat → RejectedWith .bounds s (exec (.rdcnt i) s)) ∧
  (∀ (i : BitVec 8) (s : State), i.toNat < 2 → s.phase = .idle → RejectedWith .state s (exec (.rdcnt i) s)) ∧
  (∀ (i : BitVec 8) (s : State) (h : i.toNat < 2), s.phase = .active →
    exec (.rdcnt i) s = .next { s with rsps := rspWord 0 (s.cnt[i.toNat]'h) :: s.rsps }) ∧
  (∀ s : State, ∃ t, issueAll [.init, .count 3, .rdcnt 0, .rdcnt 1] s = .next t ∧
    t.rsps.take 2 = [rspWord 0 0, rspWord 0 0x18])

/-- The sixteen digest bytes, least significant first, are the number `ACC[0] + ACC[1] 2^32 + ACC[2] 2^64 + ACC[3] 2^96`,
and RDDG `k` answers byte `k` of them (R181, R185). -/
def Obligations.DigestBytesSpellTheAccumulator : Prop :=
  (∀ acc : Quad, ((List.finRange 16).map fun k => (digestByte acc k).toNat * 256 ^ k.val).sum =
    acc[0].toNat + acc[1].toNat * 2 ^ 32 + acc[2].toNat * 2 ^ 64 + acc[3].toNat * 2 ^ 96) ∧
  (∀ (k : Fin 16) (s : State), s.phase = .active →
    ∃ t, exec (.rddg (BitVec.ofNat 8 k.val)) s = .next t ∧ (digestOf s.acc)[k.val]? = some ((lastData t).setWidth 8) ∧
      (digestOf s.acc).length = 16)

/-- R183: WRACC, its encoding, its errors in their order, and that it writes the one word and nothing else. -/
def Obligations.WriteAccumulatorWritesTheWord : Prop :=
  (∀ (i : BitVec 8) (v : Word), i.toNat < 4 → decode (cmdWord 0x0B i v) = .command (.wracc i v)) ∧
  (∀ (i : BitVec 8) (v : Word), 4 ≤ i.toNat → decode (cmdWord 0x0B i v) = .outOfBounds) ∧
  (∀ (i : BitVec 8) (v : Word) (s : State), 4 ≤ i.toNat → RejectedWith .bounds s (exec (.wracc i v) s)) ∧
  (∀ (i : BitVec 8) (v : Word) (s : State), i.toNat < 4 → s.phase = .idle → RejectedWith .state s (exec (.wracc i v) s)) ∧
  (∀ (i : BitVec 8) (v : Word) (s : State), i.toNat < 4 → s.phase = .active → ∃ a : Quad,
    exec (.wracc i v) s = .next { s with acc := a, rsps := rspWord 0 0 :: s.rsps } ∧
    ∀ k : Fin 4, a[k] = if k.val = i.toNat then v else s.acc[k])

/-- R184: WRCNT, its encoding, its errors in their order, that it writes the one word and nothing else, that INDEX follows
the low word, that COUNT carries bits 2:0 along, and the example. -/
def Obligations.WriteCounterWritesTheWord : Prop :=
  (∀ (i : BitVec 8) (v : Word), i.toNat < 2 → decode (cmdWord 0x0C i v) = .command (.wrcnt i v)) ∧
  (∀ (i : BitVec 8) (v : Word), 2 ≤ i.toNat → decode (cmdWord 0x0C i v) = .outOfBounds) ∧
  (∀ (i : BitVec 8) (v : Word) (s : State), 2 ≤ i.toNat → RejectedWith .bounds s (exec (.wrcnt i v) s)) ∧
  (∀ (i : BitVec 8) (v : Word) (s : State), i.toNat < 2 → s.phase = .idle → RejectedWith .state s (exec (.wrcnt i v) s)) ∧
  (∀ (i : BitVec 8) (v : Word) (s : State), i.toNat < 2 → s.phase = .active → ∃ cs : Vector Word 2,
    exec (.wrcnt i v) s = .next { s with cnt := cs, rsps := rspWord 0 0 :: s.rsps } ∧
    ∀ k : Fin 2, cs[k] = if k.val = i.toNat then v else s.cnt[k]) ∧
  (∀ (v : Word) (s : State), s.phase = .active →
    ∃ t, exec (.wrcnt 0 v) s = .next t ∧ t.cnt[0].extractLsb' 0 3 = v.extractLsb' 0 3 ∧ t.index = v.extractLsb' 3 6) ∧
  (∀ (len : Word) (s : State), s.phase = .active →
    ∃ t, exec (.count len) s = .next t ∧ t.cnt[0].extractLsb' 0 3 = s.cnt[0].extractLsb' 0 3) ∧
  (∀ s : State, ∃ t, issueAll [.init, .wrcnt 0 0xFFFFFFF8, .count 1] s = .next t ∧ t.cnt = #v[0, 1])

/-- A saved context can be restored: the six context writes put any accumulator and counter back and change nothing
else of the core (R183, R184, R264). -/
def Obligations.ContextWritesRestoreASavedState : Prop :=
  ∀ (s saved : State), s.phase = .active → ∃ t,
    issueAll [.wracc 0 saved.acc[0], .wracc 1 saved.acc[1], .wracc 2 saved.acc[2], .wracc 3 saved.acc[3],
      .wrcnt 0 saved.cnt[0], .wrcnt 1 saved.cnt[1]] s = .next t ∧
    SameCore { s with acc := saved.acc, cnt := saved.cnt } t

/-! ### The host sequences -/

/-- The end state of UPDATE: from an ACTIVE core whose valid bytes are its first INDEX bytes, the counter is advanced by
`8n`, INDEX by `n` modulo 64, the valid bytes are again the first INDEX bytes, every response is OK, so that no command is
rejected, and the number of XFORMs issued is `(INDEX + n) div 64` (R201). -/
def Obligations.UpdateEndsInTheStatedState : Prop :=
  ∀ (m : List Byte) (s : State), m.length < 2 ^ 32 → s.phase = .active → s.PrefixFilled →
    ∃ t, runUpdate m s = .next t ∧ t.bitCount = (s.bitCount + 8 * m.length) % 2 ^ 64 ∧
      t.index.toNat = (s.index.toNat + m.length) % 64 ∧ t.PrefixFilled ∧ t.phase = .active ∧ t.err = s.err ∧
      (updateCommands s.index.toNat m).count .xform = (s.index.toNat + m.length) / 64 ∧
      runUpdate m s = issueAll (.rdstat :: updateCommands s.index.toNat m) s ∧
      ∃ given : List RspWord, t.rsps = given ++ s.rsps ∧ ∀ r ∈ given, rspStatus r = 0

/-- Chunk invariance (R205): any way of splitting a byte string into consecutive UPDATEs leaves the same core as one
UPDATE of the whole. -/
def Obligations.UpdateIsChunkInvariant : Prop :=
  ∀ (pieces : List (List Byte)) (s : State), pieces.flatten.length < 2 ^ 32 → s.phase = .active → s.PrefixFilled →
    ∃ t u : State, runUpdates pieces s = .next t ∧ runUpdate pieces.flatten s = .next u ∧ SameCore u t

/-- UPDATE of the empty string is RDSTAT and COUNT 0 and changes no core state (R204). -/
def Obligations.EmptyUpdateChangesNothing : Prop :=
  (∀ index, index < 64 → updateCommands index [] = [.count 0]) ∧
  (∀ s : State, s.phase = .active → ∃ t, runUpdate [] s = .next t ∧ SameCore s t)

/-- R211: the padding length for every index, that it is never 0, and that the padded length is 56 modulo 64. -/
def Obligations.PaddingFillsToFiftySix : Prop :=
  ∀ index, index < 64 →
    (index ≤ 55 → padLength index = 56 - index) ∧ (56 ≤ index → padLength index = 120 - index) ∧
    1 ≤ padLength index ∧ padLength index ≤ 64 ∧ (index + padLength index) % 64 = 56 ∧
    (padding index).length = padLength index

/-- The footer is the counter, least significant byte first (R212). -/
def Obligations.FooterIsTheCounterLittleEndian : Prop :=
  ∀ (s : State) (i : Nat), i < 8 →
    ((footer s.cnt[0] s.cnt[1]).map BitVec.toNat)[i]? = some (s.bitCount / 2 ^ (8 * i) % 256)

/-- FINALIZE issues one XFORM where fewer than 56 bytes are buffered and else two (R213, 90_conflicts.md C1): from an
ACTIVE core whose valid bytes are its first INDEX bytes, FINALIZE leaves the state, the responses among it, that its
commands as one list leave; this list holds one or two XFORMs; the padding UPDATE has none or one of them and the footer
UPDATE one; and a whole message of `n` bytes takes `n div 64` and one or two. -/
def Obligations.FinalizeIssuesOneOrTwoTransforms : Prop :=
  (∀ (scrub : Bool) (s : State), s.phase = .active → s.PrefixFilled →
    ∃ (t : State) (d : List Byte), runFinalize scrub s = .next (t, d) ∧
      issueAll (finalizeCommands scrub s.index.toNat s.cnt[0] s.cnt[1]) s = .next t ∧
      (finalizeCommands scrub s.index.toNat s.cnt[0] s.cnt[1]).count .xform = if s.index.toNat < 56 then 1 else 2) ∧
  (∀ (index : Nat) (lo hi : Word), index < 64 →
    (updateCommands index (padding index)).count .xform = (if index < 56 then 0 else 1) ∧
    (updateCommands 56 (footer lo hi)).count .xform = 1) ∧
  (∀ (scrub : Bool) (m : List Byte) (lo hi : Word),
    (updateCommands 0 m).count .xform + (finalizeCommands scrub (m.length % 64) lo hi).count .xform =
      m.length / 64 + if m.length % 64 < 56 then 1 else 2)

/-- HASH computes the message digest: from every state, for every message of fewer than 2^32 bytes, the sixteen bytes
that the host reads are the digest of the padded message by the iterated transform, every response is OK and ERR is as
it was; with its last SCRUB the core ends erased in IDLE, and without it ACTIVE with the digest still readable
(R210, R215, R267, R270, 93_implementation_defined.md U1). -/
def Obligations.HashComputesTheMessageDigest : Prop :=
  ∀ (scrub : Bool) (m : List Byte) (s : State), m.length < 2 ^ 32 →
    ∃ t : State, runHash scrub m s = .next (t, md4Digest m) ∧
      (scrub = true → t.phase = .idle ∧ t.acc = #v[0, 0, 0, 0] ∧ t.cnt = #v[0, 0]) ∧
      (scrub = false → t.phase = .active ∧ digestOf t.acc = md4Digest m) ∧
      t.blk = [] ∧ t.blkv = 0 ∧ t.err = s.err ∧
      ∃ given : List RspWord, t.rsps = given ++ s.rsps ∧ ∀ r ∈ given, rspStatus r = 0

/-- Chunk invariance of the digest: a message fed in any number of UPDATEs of fewer than 2^32 bytes each, of any total
length, gives the digest of the whole message, with or without the last SCRUB, and from ERR = 0 the run is a good one
(R203, R205, R215, R270, 93_implementation_defined.md U1). -/
def Obligations.HashOfPiecesComputesTheMessageDigest : Prop :=
  ∀ (scrub : Bool) (pieces : List (List Byte)) (s : State), (∀ p ∈ pieces, p.length < 2 ^ 32) →
    ∃ t : State, runHashPieces scrub pieces s = .next (t, md4Digest pieces.flatten) ∧
      t.phase = (if scrub then .idle else .active) ∧ (s.err = 0 → GoodRun s t)

/-- Use after FINALIZE: in IDLE a further UPDATE of any byte string changes nothing but ERR, which takes code 2 if it
was 0, and the first RDCNT of a second FINALIZE is rejected with ErrState (R216). -/
def Obligations.UpdateAfterFinalizeIsRejected : Prop :=
  (∀ (m : List Byte) (s : State), s.phase = .idle →
    ∃ t, runUpdate m s = .next t ∧ SameCore { s with err := if s.err = 0 then 2 else s.err } t) ∧
  (∀ s : State, s.phase = .idle → RejectedWith .state s (exec (.rdcnt 0) s))
end

