-- ==== Sys2Proof/Laws/State.lean ====
section
/-! SUPPORT. What each update of the state does to each field: one lemma per field and update, true by rfl, so that no
proof unfolds a record update. -/

namespace Sys2Proof.Machine

namespace State

@[simp] theorem storeByte_acc (s : State) (i : Fin 64) (b : Byte) : (s.storeByte i b).acc = s.acc := rfl
@[simp] theorem storeByte_cnt (s : State) (i : Fin 64) (b : Byte) : (s.storeByte i b).cnt = s.cnt := rfl
@[simp] theorem storeByte_blk (s : State) (i : Fin 64) (b : Byte) : (s.storeByte i b).blk = Memory.store s.blk i.val b := rfl
@[simp] theorem storeByte_blkv (s : State) (i : Fin 64) (b : Byte) : (s.storeByte i b).blkv = s.blkv ||| (1#64 <<< i.val) := rfl
@[simp] theorem storeByte_phase (s : State) (i : Fin 64) (b : Byte) : (s.storeByte i b).phase = s.phase := rfl
@[simp] theorem storeByte_err (s : State) (i : Fin 64) (b : Byte) : (s.storeByte i b).err = s.err := rfl
@[simp] theorem storeByte_input (s : State) (i : Fin 64) (b : Byte) : (s.storeByte i b).input = s.input := rfl
@[simp] theorem storeByte_rsps (s : State) (i : Fin 64) (b : Byte) : (s.storeByte i b).rsps = s.rsps := rfl

@[simp] theorem clearBlock_acc (s : State) : (s.clearBlock).acc = s.acc := rfl
@[simp] theorem clearBlock_cnt (s : State) : (s.clearBlock).cnt = s.cnt := rfl
@[simp] theorem clearBlock_blk (s : State) : (s.clearBlock).blk = [] := rfl
@[simp] theorem clearBlock_blkv (s : State) : (s.clearBlock).blkv = 0 := rfl
@[simp] theorem clearBlock_phase (s : State) : (s.clearBlock).phase = s.phase := rfl
@[simp] theorem clearBlock_err (s : State) : (s.clearBlock).err = s.err := rfl
@[simp] theorem clearBlock_input (s : State) : (s.clearBlock).input = s.input := rfl
@[simp] theorem clearBlock_rsps (s : State) : (s.clearBlock).rsps = s.rsps := rfl

@[simp] theorem setAcc_acc (s : State) (i : Fin 4) (v : Word) : (s.setAcc i v).acc = s.acc.set i.val v := rfl
@[simp] theorem setAcc_cnt (s : State) (i : Fin 4) (v : Word) : (s.setAcc i v).cnt = s.cnt := rfl
@[simp] theorem setAcc_blk (s : State) (i : Fin 4) (v : Word) : (s.setAcc i v).blk = s.blk := rfl
@[simp] theorem setAcc_blkv (s : State) (i : Fin 4) (v : Word) : (s.setAcc i v).blkv = s.blkv := rfl
@[simp] theorem setAcc_phase (s : State) (i : Fin 4) (v : Word) : (s.setAcc i v).phase = s.phase := rfl
@[simp] theorem setAcc_err (s : State) (i : Fin 4) (v : Word) : (s.setAcc i v).err = s.err := rfl
@[simp] theorem setAcc_input (s : State) (i : Fin 4) (v : Word) : (s.setAcc i v).input = s.input := rfl
@[simp] theorem setAcc_rsps (s : State) (i : Fin 4) (v : Word) : (s.setAcc i v).rsps = s.rsps := rfl

@[simp] theorem setCnt_acc (s : State) (i : Fin 2) (v : Word) : (s.setCnt i v).acc = s.acc := rfl
@[simp] theorem setCnt_cnt (s : State) (i : Fin 2) (v : Word) : (s.setCnt i v).cnt = s.cnt.set i.val v := rfl
@[simp] theorem setCnt_blk (s : State) (i : Fin 2) (v : Word) : (s.setCnt i v).blk = s.blk := rfl
@[simp] theorem setCnt_blkv (s : State) (i : Fin 2) (v : Word) : (s.setCnt i v).blkv = s.blkv := rfl
@[simp] theorem setCnt_phase (s : State) (i : Fin 2) (v : Word) : (s.setCnt i v).phase = s.phase := rfl
@[simp] theorem setCnt_err (s : State) (i : Fin 2) (v : Word) : (s.setCnt i v).err = s.err := rfl
@[simp] theorem setCnt_input (s : State) (i : Fin 2) (v : Word) : (s.setCnt i v).input = s.input := rfl
@[simp] theorem setCnt_rsps (s : State) (i : Fin 2) (v : Word) : (s.setCnt i v).rsps = s.rsps := rfl

@[simp] theorem begin_acc (s : State) : (s.begin).acc = iv := rfl
@[simp] theorem begin_cnt (s : State) : (s.begin).cnt = #v[0, 0] := rfl
@[simp] theorem begin_blk (s : State) : (s.begin).blk = [] := rfl
@[simp] theorem begin_blkv (s : State) : (s.begin).blkv = 0 := rfl
@[simp] theorem begin_phase (s : State) : (s.begin).phase = .active := rfl
@[simp] theorem begin_err (s : State) : (s.begin).err = s.err := rfl
@[simp] theorem begin_input (s : State) : (s.begin).input = s.input := rfl
@[simp] theorem begin_rsps (s : State) : (s.begin).rsps = s.rsps := rfl

@[simp] theorem erase_acc (s : State) : (s.erase).acc = #v[0, 0, 0, 0] := rfl
@[simp] theorem erase_cnt (s : State) : (s.erase).cnt = #v[0, 0] := rfl
@[simp] theorem erase_blk (s : State) : (s.erase).blk = [] := rfl
@[simp] theorem erase_blkv (s : State) : (s.erase).blkv = 0 := rfl
@[simp] theorem erase_phase (s : State) : (s.erase).phase = .idle := rfl
@[simp] theorem erase_err (s : State) : (s.erase).err = s.err := rfl
@[simp] theorem erase_input (s : State) : (s.erase).input = s.input := rfl
@[simp] theorem erase_rsps (s : State) : (s.erase).rsps = s.rsps := rfl

@[simp] theorem answer_acc (s : State) (c : BitVec 8) (v : Word) : (s.answer c v).acc = s.acc := rfl
@[simp] theorem answer_cnt (s : State) (c : BitVec 8) (v : Word) : (s.answer c v).cnt = s.cnt := rfl
@[simp] theorem answer_blk (s : State) (c : BitVec 8) (v : Word) : (s.answer c v).blk = s.blk := rfl
@[simp] theorem answer_blkv (s : State) (c : BitVec 8) (v : Word) : (s.answer c v).blkv = s.blkv := rfl
@[simp] theorem answer_phase (s : State) (c : BitVec 8) (v : Word) : (s.answer c v).phase = s.phase := rfl
@[simp] theorem answer_err (s : State) (c : BitVec 8) (v : Word) : (s.answer c v).err = s.err := rfl
@[simp] theorem answer_input (s : State) (c : BitVec 8) (v : Word) : (s.answer c v).input = s.input := rfl
@[simp] theorem answer_rsps (s : State) (c : BitVec 8) (v : Word) : (s.answer c v).rsps = rspWord c v :: s.rsps := rfl

@[simp] theorem respond_acc (s : State) (v : Word) : (s.respond v).acc = s.acc := rfl
@[simp] theorem respond_cnt (s : State) (v : Word) : (s.respond v).cnt = s.cnt := rfl
@[simp] theorem respond_blk (s : State) (v : Word) : (s.respond v).blk = s.blk := rfl
@[simp] theorem respond_blkv (s : State) (v : Word) : (s.respond v).blkv = s.blkv := rfl
@[simp] theorem respond_phase (s : State) (v : Word) : (s.respond v).phase = s.phase := rfl
@[simp] theorem respond_err (s : State) (v : Word) : (s.respond v).err = s.err := rfl
@[simp] theorem respond_input (s : State) (v : Word) : (s.respond v).input = s.input := rfl
@[simp] theorem respond_rsps (s : State) (v : Word) : (s.respond v).rsps = rspWord 0 v :: s.rsps := rfl

@[simp] theorem latch_acc (s : State) (e : ErrCode) : (s.latch e).acc = s.acc := rfl
@[simp] theorem latch_cnt (s : State) (e : ErrCode) : (s.latch e).cnt = s.cnt := rfl
@[simp] theorem latch_blk (s : State) (e : ErrCode) : (s.latch e).blk = s.blk := rfl
@[simp] theorem latch_blkv (s : State) (e : ErrCode) : (s.latch e).blkv = s.blkv := rfl
@[simp] theorem latch_phase (s : State) (e : ErrCode) : (s.latch e).phase = s.phase := rfl
@[simp] theorem latch_err (s : State) (e : ErrCode) : (s.latch e).err = if s.err = 0 then e.code else s.err := rfl
@[simp] theorem latch_input (s : State) (e : ErrCode) : (s.latch e).input = s.input := rfl
@[simp] theorem latch_rsps (s : State) (e : ErrCode) : (s.latch e).rsps = s.rsps := rfl

@[simp] theorem resetEvent_acc (s : State) : (s.resetEvent).acc = #v[0, 0, 0, 0] := rfl
@[simp] theorem resetEvent_cnt (s : State) : (s.resetEvent).cnt = #v[0, 0] := rfl
@[simp] theorem resetEvent_blk (s : State) : (s.resetEvent).blk = [] := rfl
@[simp] theorem resetEvent_blkv (s : State) : (s.resetEvent).blkv = 0 := rfl
@[simp] theorem resetEvent_phase (s : State) : (s.resetEvent).phase = .idle := rfl
@[simp] theorem resetEvent_err (s : State) : (s.resetEvent).err = 0 := rfl
@[simp] theorem resetEvent_input (s : State) : (s.resetEvent).input = s.input := rfl
@[simp] theorem resetEvent_rsps (s : State) : (s.resetEvent).rsps = s.rsps := rfl

@[simp] theorem advance_acc (s : State) (len : Word) : (s.advance len).acc = s.acc := rfl
@[simp] theorem advance_cnt (s : State) (len : Word) : (s.advance len).cnt = #v[countLow s.cnt[0] len, countHigh s.cnt[0] s.cnt[1] len] := rfl
@[simp] theorem advance_blk (s : State) (len : Word) : (s.advance len).blk = s.blk := rfl
@[simp] theorem advance_blkv (s : State) (len : Word) : (s.advance len).blkv = s.blkv := rfl
@[simp] theorem advance_phase (s : State) (len : Word) : (s.advance len).phase = s.phase := rfl
@[simp] theorem advance_err (s : State) (len : Word) : (s.advance len).err = s.err := rfl
@[simp] theorem advance_input (s : State) (len : Word) : (s.advance len).input = s.input := rfl
@[simp] theorem advance_rsps (s : State) (len : Word) : (s.advance len).rsps = s.rsps := rfl

@[simp] theorem transform_acc (s : State) : (s.transform).acc = md4t s.acc s.blockBytes := rfl
@[simp] theorem transform_cnt (s : State) : (s.transform).cnt = s.cnt := rfl
@[simp] theorem transform_blk (s : State) : (s.transform).blk = [] := rfl
@[simp] theorem transform_blkv (s : State) : (s.transform).blkv = 0 := rfl
@[simp] theorem transform_phase (s : State) : (s.transform).phase = s.phase := rfl
@[simp] theorem transform_err (s : State) : (s.transform).err = s.err := rfl
@[simp] theorem transform_input (s : State) : (s.transform).input = s.input := rfl
@[simp] theorem transform_rsps (s : State) : (s.transform).rsps = s.rsps := rfl

@[simp] theorem present_acc (s : State) (w : CmdWord) : (s.present w).acc = s.acc := rfl
@[simp] theorem present_cnt (s : State) (w : CmdWord) : (s.present w).cnt = s.cnt := rfl
@[simp] theorem present_blk (s : State) (w : CmdWord) : (s.present w).blk = s.blk := rfl
@[simp] theorem present_blkv (s : State) (w : CmdWord) : (s.present w).blkv = s.blkv := rfl
@[simp] theorem present_phase (s : State) (w : CmdWord) : (s.present w).phase = s.phase := rfl
@[simp] theorem present_err (s : State) (w : CmdWord) : (s.present w).err = s.err := rfl
@[simp] theorem present_input (s : State) (w : CmdWord) : (s.present w).input = .cmd w :: s.input := rfl
@[simp] theorem present_rsps (s : State) (w : CmdWord) : (s.present w).rsps = s.rsps := rfl

/-- A word stored is four bytes stored, in the order of their indices (20_memory.md R52). -/
theorem storeWord_eq (s : State) (j : Fin 16) (v : Word) :
    s.storeWord j v =
      (((s.storeByte (blockIndex j 0) (byteOf v 0)).storeByte (blockIndex j 1) (byteOf v 1)).storeByte
        (blockIndex j 2) (byteOf v 2)).storeByte (blockIndex j 3) (byteOf v 3) := rfl

@[simp] theorem storeWord_acc (s : State) (j : Fin 16) (v : Word) : (s.storeWord j v).acc = s.acc := rfl
@[simp] theorem storeWord_cnt (s : State) (j : Fin 16) (v : Word) : (s.storeWord j v).cnt = s.cnt := rfl
@[simp] theorem storeWord_phase (s : State) (j : Fin 16) (v : Word) : (s.storeWord j v).phase = s.phase := rfl
@[simp] theorem storeWord_err (s : State) (j : Fin 16) (v : Word) : (s.storeWord j v).err = s.err := rfl
@[simp] theorem storeWord_input (s : State) (j : Fin 16) (v : Word) : (s.storeWord j v).input = s.input := rfl
@[simp] theorem storeWord_rsps (s : State) (j : Fin 16) (v : Word) : (s.storeWord j v).rsps = s.rsps := rfl

end State

end Sys2Proof.Machine
end

