-- ==== Sys2Proof/Laws/Memory.lean ====
section
/-! SUPPORT. The laws of the block buffer: a read after a write, and that every operation keeps the canonical form. -/

namespace Sys2Proof.Machine

/-- A read after a write gives the value written at its own index and leaves every other index alone. -/
theorem Memory.lookup_store (m : List Host.Cell) (k a : Nat) (b : Byte) :
    Memory.lookup (Memory.store m k b) a = if a = k then some b else Memory.lookup m a := by
  induction m with
  | nil => simp [Memory.store, Memory.lookup, eq_comm]
  | cons c m ih =>
    obtain ⟨x, v⟩ := c
    simp only [Memory.store]
    split
    · simp only [Memory.lookup]
      by_cases h : a = k
      · simp [h]
      · simp [h, Ne.symm h, eq_comm]
    · split
      · subst_vars
        simp only [Memory.lookup]
        by_cases h : a = x
        · simp [h]
        · simp [h, Ne.symm h]
      · simp only [Memory.lookup, ih]
        by_cases h : x = a
        · have : a ≠ k := by omega
          simp [h, this]
        · simp [h]

theorem Memory.lookup_store_same (m : List Host.Cell) (k : Nat) (b : Byte) :
    Memory.lookup (Memory.store m k b) k = some b := by simp [Memory.lookup_store]

theorem Memory.lookup_store_other (m : List Host.Cell) {k a : Nat} (b : Byte) (h : a ≠ k) :
    Memory.lookup (Memory.store m k b) a = Memory.lookup m a := by simp [Memory.lookup_store, h]

/-- A store inside the block keeps the canonical form above any index at or below the one stored to. -/
theorem Memory.wfFrom_store (m : List Host.Cell) (low k : Nat) (b : Byte) (hlow : low ≤ k) (hk : k < 64)
    (h : Memory.wfFrom low m = true) : Memory.wfFrom low (Memory.store m k b) = true := by
  induction m generalizing low with
  | nil => simp [Memory.store, Memory.wfFrom, hlow, hk]
  | cons c m ih =>
    obtain ⟨x, v⟩ := c
    simp only [Memory.wfFrom, Bool.and_eq_true, decide_eq_true_eq] at h
    obtain ⟨⟨hx, hx64⟩, hm⟩ := h
    simp only [Memory.store]
    split
    · simp only [Memory.wfFrom, Bool.and_eq_true, decide_eq_true_eq]
      exact ⟨⟨hlow, hk⟩, ⟨by omega, hx64⟩, hm⟩
    · split
      · subst_vars
        simp only [Memory.wfFrom, Bool.and_eq_true, decide_eq_true_eq]
        exact ⟨⟨hlow, hk⟩, hm⟩
      · simp only [Memory.wfFrom, Bool.and_eq_true, decide_eq_true_eq]
        exact ⟨⟨hx, hx64⟩, ih (x + 1) (by omega) hm⟩

/-- A store inside the block keeps the canonical form. -/
theorem Memory.wf_store (m : List Host.Cell) (i : Fin 64) (b : Byte) (h : Memory.wf m = true) :
    Memory.wf (Memory.store m i.val b) = true :=
  Memory.wfFrom_store m 0 i.val b (Nat.zero_le _) i.isLt h

theorem Memory.wf_nil : Memory.wf [] = true := rfl

/-- The block buffer is in canonical form after reset. -/
theorem State.reset_blk_wf : Memory.wf State.reset.blk = true := rfl

theorem State.storeByte_wf (s : State) (i : Fin 64) (b : Byte) (h : Memory.wf s.blk = true) :
    Memory.wf (s.storeByte i b).blk = true := Memory.wf_store s.blk i b h

theorem State.storeWord_wf (s : State) (j : Fin 16) (v : Word) (h : Memory.wf s.blk = true) :
    Memory.wf (s.storeWord j v).blk = true := by
  simp only [State.storeWord_eq]
  exact State.storeByte_wf _ _ _ (State.storeByte_wf _ _ _ (State.storeByte_wf _ _ _ (State.storeByte_wf _ _ _ h)))

theorem State.clearBlock_wf (s : State) : Memory.wf s.clearBlock.blk = true := rfl

/-- Below the first index of a canonical list nothing is listed. -/
theorem Memory.lookup_of_wfFrom (m : List Host.Cell) (low k : Nat) (h : Memory.wfFrom low m = true)
    (hk : k < low ∨ 64 ≤ k) : Memory.lookup m k = none := by
  induction m generalizing low with
  | nil => rfl
  | cons c m ih =>
    obtain ⟨x, v⟩ := c
    simp only [Memory.wfFrom, Bool.and_eq_true, decide_eq_true_eq] at h
    obtain ⟨⟨hx, hx64⟩, hm⟩ := h
    have hne : x ≠ k := by omega
    simp only [Memory.lookup, hne, if_false]
    exact ih (x + 1) hm (by omega)

/-- Nothing is listed outside the block. -/
theorem Memory.lookup_outside (m : List Host.Cell) (h : Memory.wf m = true) {k : Nat} (hk : 64 ≤ k) :
    Memory.lookup m k = none := Memory.lookup_of_wfFrom m 0 k h (.inr hk)

/-- Canonical lists that read the same everywhere are the same list. -/
theorem Memory.ext_of_wfFrom (m n : List Host.Cell) (low : Nat) (hm : Memory.wfFrom low m = true)
    (hn : Memory.wfFrom low n = true) (h : ∀ k, Memory.lookup m k = Memory.lookup n k) : m = n := by
  induction m generalizing n low with
  | nil =>
    cases n with
    | nil => rfl
    | cons c n =>
      obtain ⟨x, v⟩ := c
      have := h x
      simp [Memory.lookup] at this
  | cons c m ih =>
    obtain ⟨x, v⟩ := c
    cases n with
    | nil =>
      have := h x
      simp [Memory.lookup] at this
    | cons d n =>
      obtain ⟨y, w⟩ := d
      simp only [Memory.wfFrom, Bool.and_eq_true, decide_eq_true_eq] at hm hn
      have hxy : x = y := by
        rcases Nat.lt_trichotomy x y with hlt | heq | hgt
        · have h1 := h x
          have h2 : Memory.lookup n x = none := Memory.lookup_of_wfFrom n (y + 1) x hn.2 (.inl (by omega))
          have h3 : y ≠ x := by omega
          simp [Memory.lookup, h2, h3] at h1
        · exact heq
        · have h1 := h y
          have h2 : Memory.lookup m y = none := Memory.lookup_of_wfFrom m (x + 1) y hm.2 (.inl (by omega))
          have h3 : x ≠ y := by omega
          simp [Memory.lookup, h2, h3] at h1
      subst hxy
      have hv : v = w := by
        have := h x
        simpa [Memory.lookup] using this
      subst hv
      congr 1
      refine ih n (x + 1) hm.2 hn.2 fun k => ?_
      by_cases hk : x = k
      · subst hk
        rw [Memory.lookup_of_wfFrom m (x + 1) x hm.2 (.inl (by omega)),
          Memory.lookup_of_wfFrom n (x + 1) x hn.2 (.inl (by omega))]
      · have := h k
        simpa [Memory.lookup, hk] using this

theorem Memory.ext_of_wf {m n : List Host.Cell} (hm : Memory.wf m = true) (hn : Memory.wf n = true)
    (h : ∀ k, Memory.lookup m k = Memory.lookup n k) : m = n := Memory.ext_of_wfFrom m n 0 hm hn h

/-- The read of a byte that holds a value gives that value. -/
theorem Memory.read_of_lookup {m : List Host.Cell} {k : Nat} {b : Byte} (h : Memory.lookup m k = some b) :
    Memory.read m k = b := by simp [Memory.read, h]

/-- The valid bit that a byte store sets (20_memory.md R52). -/
theorem State.storeByte_blkv_bit (s : State) (i : Fin 64) (b : Byte) (k : Nat) (hk : k < 64) :
    (s.storeByte i b).blkv.getLsbD k = (decide (k = i.val) || s.blkv.getLsbD k) := by
  have hi := i.isLt
  by_cases h : k = i.val
  · subst h
    simp
  · by_cases h2 : k < i.val
    · simp [h, h2, hk]
    · have h3 : k - i.val ≠ 0 := by omega
      simp [h, h2, hk, h3]

/-- The byte store keeps BLKV and BLK in agreement (10_state.md R26). -/
theorem State.storeByte_lookup (s : State) (i : Fin 64) (b : Byte) (a : Nat) :
    Memory.lookup (s.storeByte i b).blk a = if a = i.val then some b else Memory.lookup s.blk a := by
  simp [Memory.lookup_store]

theorem blockIndex_val (j : Fin 16) (k : Fin 4) : (blockIndex j k).val = 4 * j.val + k.val := by
  simp [blockIndex, wordByteIndex]

theorem blockIndex_zero (j : Fin 16) : (blockIndex j 0).val = 4 * j.val := by
  simp [blockIndex, wordByteIndex]

theorem blockIndex_one (j : Fin 16) : (blockIndex j 1).val = 4 * j.val + 1 := by
  simp [blockIndex, wordByteIndex]

theorem blockIndex_two (j : Fin 16) : (blockIndex j 2).val = 4 * j.val + 2 := by
  simp [blockIndex, wordByteIndex]

theorem blockIndex_three (j : Fin 16) : (blockIndex j 3).val = 4 * j.val + 3 := by
  simp [blockIndex, wordByteIndex]

/-- What a word store leaves at each of its own indices. -/
theorem State.storeWord_lookup_same (s : State) (j : Fin 16) (v : Word) (k : Fin 4) :
    Memory.lookup (s.storeWord j v).blk (4 * j.val + k.val) = some (byteOf v k) := by
  simp only [State.storeWord_eq, State.storeByte_lookup, blockIndex_zero, blockIndex_one, blockIndex_two,
    blockIndex_three]
  have hk : k = 0 ∨ k = 1 ∨ k = 2 ∨ k = 3 := by omega
  rcases hk with rfl | rfl | rfl | rfl <;> simp

/-- A word store leaves every index of another word alone. -/
theorem State.storeWord_lookup_other (s : State) (j : Fin 16) (v : Word) {a : Nat} (h : a / 4 ≠ j.val) :
    Memory.lookup (s.storeWord j v).blk a = Memory.lookup s.blk a := by
  simp only [State.storeWord_eq, State.storeByte_lookup, blockIndex_zero, blockIndex_one, blockIndex_two,
    blockIndex_three]
  rw [if_neg (by omega), if_neg (by omega), if_neg (by omega), if_neg (by omega)]

/-- The valid bits that a word store sets (20_memory.md R52). -/
theorem State.storeWord_blkv_bit (s : State) (j : Fin 16) (v : Word) (a : Nat) (ha : a < 64) :
    (s.storeWord j v).blkv.getLsbD a = (decide (a / 4 = j.val) || s.blkv.getLsbD a) := by
  simp only [State.storeWord_eq, State.storeByte_blkv_bit _ _ _ a ha, blockIndex_zero, blockIndex_one,
    blockIndex_two, blockIndex_three, ← Bool.or_assoc]
  congr 1
  rw [Bool.eq_iff_iff]
  simp only [Bool.or_eq_true, decide_eq_true_eq]
  omega

end Sys2Proof.Machine
end

