-- ==== Sys2Proof/Laws/Ops.lean ====
section
/-! SUPPORT. What the shared operations of a command can do: the index check, the lifecycle check, the rejection and
the response. -/

namespace Sys2Proof.Machine

/-! ### Operands -/

theorem indexIn_of_lt {bound : Nat} {idx : BitVec 8} (h : idx.toNat < bound) :
    indexIn bound idx = some ⟨idx.toNat, h⟩ := by simp [indexIn, h]

theorem indexIn_of_ge {bound : Nat} {idx : BitVec 8} (h : bound ≤ idx.toNat) : indexIn bound idx = none := by
  simp [indexIn, Nat.not_lt.mpr h]

/-- The index check answers the index itself, and only below the limit. -/
theorem indexIn_eq_some {bound : Nat} {idx : BitVec 8} {i : Fin bound} (h : indexIn bound idx = some i) :
    i.val = idx.toNat := by
  unfold indexIn at h
  split at h
  · cases h; rfl
  · cases h

theorem indexIn_eq_none {bound : Nat} {idx : BitVec 8} (h : indexIn bound idx = none) : bound ≤ idx.toNat := by
  unfold indexIn at h
  split at h
  · cases h
  · omega

/-- An index inside its space, written as an operand, passes the check as itself. -/
theorem indexIn_ofNat {bound : Nat} (i : Fin bound) (hb : bound ≤ 256) :
    indexIn bound (BitVec.ofNat 8 i.val) = some i := by
  have hi := i.isLt
  have h : (BitVec.ofNat 8 i.val).toNat = i.val := by
    simp only [BitVec.toNat_ofNat]; omega
  simp [indexIn, h]

/-! ### Responses -/

@[simp] theorem rspStatus_rspWord (c : BitVec 8) (v : Word) : rspStatus (rspWord c v) = c :=
  BitVec.extractLsb'_append_eq_left

@[simp] theorem rspData_rspWord (c : BitVec 8) (v : Word) : rspData (rspWord c v) = v :=
  BitVec.extractLsb'_append_eq_right

@[simp] theorem lastData_respond (s : State) (v : Word) : lastData (s.respond v) = v := by
  simp [lastData, State.respond, State.answer]

/-! ### Rejection and the lifecycle check -/

/-- A rejection is a next state: the error latched, the code answered. -/
theorem State.reject_eq (s : State) (e : ErrCode) : s.reject e = .next ((s.latch e).answer e.status 0) := rfl

theorem State.ifActive_idle {s : State} (h : s.phase = .idle) (o : Host.Outcome State Fault Refusal) :
    s.ifActive o = s.reject .state := by simp [State.ifActive, h]

theorem State.ifActive_active {s : State} (h : s.phase = .active) (o : Host.Outcome State Fault Refusal) :
    s.ifActive o = o := by simp [State.ifActive, h]

theorem Phase.idle_or_active (p : Phase) : p = .idle ∨ p = .active := by cases p <;> simp

/-- The code of an error is not 0. -/
theorem ErrCode.code_ne_zero (e : ErrCode) : e.code ≠ 0 := by cases e <;> decide

theorem ErrCode.status_ne_zero (e : ErrCode) : e.status ≠ 0 := by cases e <;> decide

theorem ErrCode.code_le (e : ErrCode) : e.code.toNat ≤ 4 := by cases e <;> decide

/-- `FULL` says that BLKV is all ones. -/
theorem State.full_iff (s : State) : s.full = true ↔ s.blkv = BitVec.allOnes 64 := by
  simp [State.full]

@[simp] theorem andThen_next {α : Type} (s : State) (f : State → Host.Outcome α Fault Refusal) :
    andThen (.next s) f = f s := rfl

end Sys2Proof.Machine
end

