-- ==== Sys2Proof/Laws/Exec.lean ====
section
/-! SUPPORT. What each command does, once: rejected with ErrBounds where its index is out of range, with ErrState in
IDLE, XFORM with ErrIncomplete where the block is not full, and else performed. -/

namespace Sys2Proof.Machine

/-- The change of the core that a performed command makes. -/
def effect (i : Instr) (s : State) : State :=
  match i with
  | .init => s.begin
  | .count len => s.advance len
  | .ldb pos byte => match indexIn 64 pos with | none => s | some k => s.storeByte k byte
  | .ldw wordIndex word => match indexIn 16 wordIndex with | none => s | some j => s.storeWord j word
  | .xform => s.transform
  | .rdacc _ => s
  | .rddg _ => s
  | .rdcnt _ => s
  | .rdstat => s
  | .scrub => s.erase
  | .wracc k word => match indexIn 4 k with | none => s | some j => s.setAcc j word
  | .wrcnt k word => match indexIn 2 k with | none => s | some j => s.setCnt j word

/-- The data that a performed command answers. -/
def answerData (i : Instr) (s : State) : Word :=
  match i with
  | .rdacc k => match indexIn 4 k with | none => 0 | some j => s.acc[j]
  | .rddg k => match indexIn 16 k with | none => 0 | some j => (digestByte s.acc j).setWidth 32
  | .rdcnt k => match indexIn 2 k with | none => 0 | some j => s.cnt[j]
  | .rdstat => s.status
  | .init | .count _ | .ldb _ _ | .ldw _ _ | .xform | .scrub | .wracc _ _ | .wrcnt _ _ => 0

/-- The commands that both phases perform (60_exceptions.md R234). -/
def anyPhase (i : Instr) : Bool :=
  match i with
  | .init | .rdstat | .scrub => true
  | .count _ | .ldb _ _ | .ldw _ _ | .xform | .rdacc _ | .rddg _ | .rdcnt _ | .wracc _ _ | .wrcnt _ _ => false

/-- An index out of range is rejected whatever the state (60_exceptions.md R233). -/
theorem exec_outOfBounds {i : Instr} (h : i.wellFormed = false) (s : State) : exec i s = s.reject .bounds := by
  cases i <;> simp [Instr.wellFormed] at h <;>
    simp [exec, execLdb, execLdw, execRdacc, execRddg, execRdcnt, execWracc, execWrcnt, indexIn_of_ge h]

/-- In IDLE a well-formed command of the lifecycle check is rejected (60_exceptions.md R234). -/
theorem exec_idle {i : Instr} (hw : i.wellFormed = true) (ha : anyPhase i = false) {s : State}
    (h : s.phase = .idle) : exec i s = s.reject .state := by
  cases i <;> simp [anyPhase] at ha <;> simp [Instr.wellFormed] at hw <;>
    simp [exec, execCount, execLdb, execLdw, execXform, execRdacc, execRddg, execRdcnt, execWracc, execWrcnt,
      State.ifActive_idle h, indexIn_of_lt, hw]

/-- XFORM is rejected while the block is not complete (60_exceptions.md R235). -/
theorem exec_xform_incomplete {s : State} (h : s.phase = .active) (hf : s.full = false) :
    exec .xform s = s.reject .incomplete := by
  simp [exec, execXform, State.ifActive_active h, hf]

/-- A well-formed command is performed in ACTIVE, XFORM with a complete block only. -/
theorem exec_active {i : Instr} (hw : i.wellFormed = true) {s : State} (h : s.phase = .active)
    (hx : i = .xform → s.full = true) : exec i s = .next ((effect i s).respond (answerData i s)) := by
  cases i <;> simp [Instr.wellFormed] at hw <;>
    simp_all [exec, execInit, execCount, execLdb, execLdw, execXform, execRdacc, execRddg, execRdcnt, execRdstat,
      execScrub, execWracc, execWrcnt, State.ifActive_active h, indexIn_of_lt, effect, answerData]

/-- INIT, SCRUB and RDSTAT are performed in both phases (60_exceptions.md R234). -/
theorem exec_anyPhase {i : Instr} (ha : anyPhase i = true) (s : State) :
    exec i s = .next ((effect i s).respond (answerData i s)) := by
  cases i <;> simp [anyPhase] at ha <;> rfl

/-- Everything that a command can do. -/
theorem exec_cases (i : Instr) (s : State) :
    (i.wellFormed = false ∧ exec i s = s.reject .bounds) ∨
    (i.wellFormed = true ∧ anyPhase i = false ∧ s.phase = .idle ∧ exec i s = s.reject .state) ∨
    (i = .xform ∧ s.phase = .active ∧ s.full = false ∧ exec i s = s.reject .incomplete) ∨
    (i.wellFormed = true ∧ (s.phase = .active ∨ anyPhase i = true) ∧ (i = .xform → s.full = true) ∧
      exec i s = .next ((effect i s).respond (answerData i s))) := by
  cases hw : i.wellFormed
  · exact .inl ⟨rfl, exec_outOfBounds hw s⟩
  · cases ha : anyPhase i
    · rcases s.phase.idle_or_active with hp | hp
      · exact .inr (.inl ⟨rfl, rfl, hp, exec_idle hw ha hp⟩)
      · by_cases hx : i = .xform
        · subst hx
          cases hf : s.full
          · exact .inr (.inr (.inl ⟨rfl, hp, rfl, exec_xform_incomplete hp hf⟩))
          · exact .inr (.inr (.inr ⟨rfl, .inl hp, fun _ => rfl, exec_active hw hp fun _ => hf⟩))
        · exact .inr (.inr (.inr ⟨rfl, .inl hp, fun h => absurd h hx, exec_active hw hp fun h => absurd h hx⟩))
    · refine .inr (.inr (.inr ⟨rfl, .inr rfl, ?_, exec_anyPhase ha s⟩))
      rintro rfl
      simp [anyPhase] at ha

/-- A command always answers a next state: it is rejected, or performed. -/
theorem exec_next (i : Instr) (s : State) :
    (∃ e, exec i s = .next ((s.latch e).answer e.status 0)) ∨
    exec i s = .next ((effect i s).respond (answerData i s)) := by
  rcases exec_cases i s with ⟨_, h⟩ | ⟨_, _, _, h⟩ | ⟨_, _, _, h⟩ | ⟨_, _, _, h⟩
  · exact .inl ⟨_, h⟩
  · exact .inl ⟨_, h⟩
  · exact .inl ⟨_, h⟩
  · exact .inr h

/-! ### What a performed command never touches -/

@[simp] theorem effect_input (i : Instr) (s : State) : (effect i s).input = s.input := by
  cases i <;> simp only [effect] <;> (try split) <;> simp

@[simp] theorem effect_rsps (i : Instr) (s : State) : (effect i s).rsps = s.rsps := by
  cases i <;> simp only [effect] <;> (try split) <;> simp

@[simp] theorem effect_err (i : Instr) (s : State) : (effect i s).err = s.err := by
  cases i <;> simp only [effect] <;> (try split) <;> simp

theorem effect_phase (i : Instr) (s : State) :
    (effect i s).phase = if i = .init then .active else if i = .scrub then .idle else s.phase := by
  cases i <;> simp [effect] <;> split <;> simp

end Sys2Proof.Machine
end

