-- ==== Sys2Proof/Laws/BitCount.lean ====
section
/-! SUPPORT. The arithmetic of COUNT in numbers (41_bitcount.md R120, R121). -/

namespace Sys2Proof.Machine

theorem countAdd_toNat (len : Word) : (countAdd len).toNat = (len.toNat * 8) % 2 ^ 32 := by
  simp [countAdd, BitVec.toNat_shiftLeft, Nat.shiftLeft_eq]

theorem countSum_toNat (low len : Word) :
    (countSum low len).toNat = low.toNat + (len.toNat * 8) % 2 ^ 32 := by
  have h1 := low.isLt
  have h2 : (countAdd len).toNat < 2 ^ 32 := (countAdd len).isLt
  rw [countAdd_toNat] at h2
  simp only [countSum, BitVec.toNat_add, BitVec.toNat_setWidth, countAdd_toNat]
  omega

/-- The low word after COUNT. -/
theorem countLow_toNat (low len : Word) :
    (countLow low len).toNat = (low.toNat + (len.toNat * 8) % 2 ^ 32) % 2 ^ 32 := by
  simp only [countLow, BitVec.extractLsb'_toNat, countSum_toNat, Nat.shiftRight_zero]

/-- The high word after COUNT. -/
theorem countHigh_toNat (low high len : Word) :
    (countHigh low high len).toNat =
      (high.toNat + (low.toNat + (len.toNat * 8) % 2 ^ 32) / 2 ^ 32 + len.toNat / 2 ^ 29) % 2 ^ 32 := by
  have h1 := low.isLt
  have h2 := len.isLt
  simp only [countHigh, BitVec.toNat_add, BitVec.toNat_setWidth, BitVec.extractLsb'_toNat, countSum_toNat,
    BitVec.toNat_ushiftRight, Nat.shiftRight_eq_div_pow]
  omega

theorem State.index_toNat (s : State) : s.index.toNat = s.cnt[0].toNat / 8 % 64 := by
  simp [State.index, BitVec.extractLsb'_toNat, Nat.shiftRight_eq_div_pow]

@[simp] theorem State.advance_low (s : State) (len : Word) : (s.advance len).cnt[0] = countLow s.cnt[0] len := rfl

@[simp] theorem State.advance_high (s : State) (len : Word) :
    (s.advance len).cnt[1] = countHigh s.cnt[0] s.cnt[1] len := rfl

end Sys2Proof.Machine
end

