-- ==== Sys2Proof/Laws/Command.lean ====
section
/-! SUPPORT. What one command word, one input and one step can do. -/

namespace Sys2Proof.Machine

theorem reject_rejectedWith (e : ErrCode) (s : State) : RejectedWith e s (s.reject e) := rfl

theorem perform_illegal {w : CmdWord} (h : decode w = .illegal) (s : State) : perform w s = s.reject .illegal := by
  simp [perform, h]

theorem perform_outOfBounds {w : CmdWord} (h : decode w = .outOfBounds) (s : State) :
    perform w s = s.reject .bounds := by simp [perform, h]

theorem perform_command {w : CmdWord} {i : Instr} (h : decode w = .command i) (s : State) : perform w s = exec i s := by
  simp [perform, h]

/-- A command word is rejected, or decodes to a command that is performed; either way a next state. -/
theorem perform_next (w : CmdWord) (s : State) :
    (∃ e, perform w s = .next ((s.latch e).answer e.status 0)) ∨
    ∃ i, decode w = .command i ∧ perform w s = exec i s ∧
      perform w s = .next ((effect i s).respond (answerData i s)) := by
  cases hd : decode w with
  | illegal => exact .inl ⟨_, perform_illegal hd s⟩
  | outOfBounds => exact .inl ⟨_, perform_outOfBounds hd s⟩
  | command i =>
    rw [perform_command hd s]
    rcases exec_next i s with h | h
    · exact .inl h
    · exact .inr ⟨i, rfl, rfl, h⟩

theorem step_nil {s : State} (h : s.input = []) : step s = .next s := by simp [step, h]

theorem step_cmd {s : State} {w : CmdWord} {rest : List Input} (h : s.input = .cmd w :: rest) :
    step s = perform w (s.withInput rest) := by simp [step, h, takeInput, State.withInput]

theorem step_reset {s : State} {rest : List Input} (h : s.input = .reset :: rest) :
    step s = .next (s.withInput rest).resetEvent := by simp [step, h, takeInput, State.withInput]

/-- Everything that a step can do: nothing, a reset, or one command word. -/
theorem step_cases (s : State) :
    (s.input = [] ∧ step s = .next s) ∨
    (∃ rest, s.input = .reset :: rest ∧ step s = .next (s.withInput rest).resetEvent) ∨
    ∃ w rest, s.input = .cmd w :: rest ∧ step s = perform w (s.withInput rest) := by
  cases h : s.input with
  | nil => exact .inl ⟨rfl, step_nil h⟩
  | cons e rest =>
    cases e with
    | reset => exact .inr (.inl ⟨rest, rfl, step_reset h⟩)
    | cmd w => exact .inr (.inr ⟨w, rest, rfl, step_cmd h⟩)

/-! ### Runs -/

theorem run_zero (s : State) : Host.Core.run Sys2Proof.core 0 s = .next s := rfl

/-- A run of one step more is a step and the rest of the run. -/
theorem run_succ (k : Nat) (s : State) :
    Host.Core.run Sys2Proof.core (k + 1) s = andThen (step s) (Host.Core.run Sys2Proof.core k) := by
  have h : Host.Core.step Sys2Proof.core s = step s := rfl
  simp only [Host.Core.run, h]
  cases step s <;> rfl

/-! ### The input port is no operand of a command -/

theorem effect_withInput (i : Instr) (s : State) (es : List Input) :
    effect i (s.withInput es) = (effect i s).withInput es := by
  cases i <;> simp only [effect] <;> (try split) <;> rfl

theorem answerData_withInput (i : Instr) (s : State) (es : List Input) :
    answerData i (s.withInput es) = answerData i s := by
  cases i <;> rfl

/-- A command does the same whatever is presented after it. -/
theorem exec_withInput (i : Instr) (s : State) (es : List Input) :
    ∃ t, exec i s = .next t ∧ exec i (s.withInput es) = .next (t.withInput es) := by
  rcases exec_cases i s with ⟨hw, he⟩ | ⟨hw, ha, hp, he⟩ | ⟨hx, hp, hf, he⟩ | ⟨hw, ho, hx, he⟩
  · exact ⟨_, he, exec_outOfBounds hw _⟩
  · exact ⟨_, he, exec_idle hw ha (s := s.withInput es) hp⟩
  · subst hx
    exact ⟨_, he, exec_xform_incomplete (s := s.withInput es) hp hf⟩
  · refine ⟨_, he, ?_⟩
    have h : exec i (s.withInput es) =
        .next ((effect i (s.withInput es)).respond (answerData i (s.withInput es))) := by
      rcases ho with hp | ha
      · exact exec_active hw (s := s.withInput es) hp hx
      · exact exec_anyPhase ha _
    rw [h, effect_withInput, answerData_withInput]
    rfl

/-- A command word does the same whatever is presented after it. -/
theorem perform_withInput (w : CmdWord) (s : State) (es : List Input) :
    ∃ t, perform w s = .next t ∧ perform w (s.withInput es) = .next (t.withInput es) := by
  cases hd : decode w with
  | illegal => exact ⟨_, perform_illegal hd s, perform_illegal hd _⟩
  | outOfBounds => exact ⟨_, perform_outOfBounds hd s, perform_outOfBounds hd _⟩
  | command i =>
    rw [perform_command hd, perform_command hd]
    exact exec_withInput i s es

end Sys2Proof.Machine
end

