-- ==== Sys2Proof/Laws/Decode.lean ====
section
/-! SUPPORT. The laws of the command word: its fields, what a row of the opcode map selects in terms of the fields,
and what the decoder answers for the fields. -/

namespace Sys2Proof

@[simp] theorem opField_cmdWord (op idx : BitVec 8) (data : Word) : opField (cmdWord op idx data) = op := by
  show BitVec.extractLsb' 40 8 (op ++ idx ++ data) = op
  rw [BitVec.extractLsb'_append_eq_of_le (by decide)]
  exact BitVec.extractLsb'_append_eq_left

@[simp] theorem idxField_cmdWord (op idx : BitVec 8) (data : Word) : idxField (cmdWord op idx data) = idx := by
  show BitVec.extractLsb' 32 8 (op ++ idx ++ data) = idx
  rw [BitVec.extractLsb'_append_eq_of_le (by decide)]
  exact BitVec.extractLsb'_append_eq_right

@[simp] theorem dataField_cmdWord (op idx : BitVec 8) (data : Word) : dataField (cmdWord op idx data) = data :=
  BitVec.extractLsb'_append_eq_right

/-- A command word is its three fields (30_encoding.md R70). -/
theorem cmdWord_fields (w : CmdWord) : cmdWord (opField w) (idxField w) (dataField w) = w := by
  apply BitVec.eq_of_getLsbD_eq
  intro i hi
  show (BitVec.extractLsb' 40 8 w ++ BitVec.extractLsb' 32 8 w ++ BitVec.extractLsb' 0 32 w).getLsbD i = _
  simp only [BitVec.getLsbD_append, BitVec.getLsbD_extractLsb']
  split
  · simp_all
  · split
    · simp only [show i - 32 < 8 from ‹_›, decide_true, Bool.true_and]
      congr 1; omega
    · have : i - 32 - 8 < 8 := by omega
      simp only [this, decide_true, Bool.true_and]
      congr 1; omega

/-- Two words of given fields are equal exactly when the fields are. -/
theorem cmdWord_inj (op idx op' idx' : BitVec 8) (data data' : Word) :
    cmdWord op idx data = cmdWord op' idx' data' ↔ op = op' ∧ idx = idx' ∧ data = data' := by
  constructor
  · intro h
    refine ⟨?_, ?_, ?_⟩
    · simpa using congrArg opField h
    · simpa using congrArg idxField h
    · simpa using congrArg dataField h
  · rintro ⟨rfl, rfl, rfl⟩; rfl

theorem cmdWord_and (op idx op' idx' : BitVec 8) (data data' : Word) :
    cmdWord op idx data &&& cmdWord op' idx' data' = cmdWord (op &&& op') (idx &&& idx') (data &&& data') := by
  show (op ++ idx ++ data) &&& (op' ++ idx' ++ data') = (op &&& op') ++ (idx &&& idx') ++ (data &&& data')
  rw [BitVec.and_append, BitVec.and_append]

/-- A mask and pattern given by fields select a word by its fields. -/
theorem selects_fields (r : OpRow) (pop pidx mop midx : BitVec 8) (pdata mdata : Word)
    (hp : r.pattern = cmdWord pop pidx pdata) (hm : r.mask = cmdWord mop midx mdata) (op idx : BitVec 8) (data : Word) :
    r.selects (cmdWord op idx data) = true ↔ op &&& mop = pop ∧ idx &&& midx = pidx ∧ data &&& mdata = pdata := by
  simp only [OpRow.selects, hp, hm, cmdWord_and, beq_iff_eq, cmdWord_inj]

theorem and_ones8 (x : BitVec 8) : x &&& 0xFF = x := by
  rw [show (0xFF : BitVec 8) = BitVec.allOnes 8 from by decide]
  exact BitVec.and_allOnes

theorem and_ones32 (x : Word) : x &&& 0xFFFFFFFF = x := by
  rw [show (0xFFFFFFFF : Word) = BitVec.allOnes 32 from by decide]
  exact BitVec.and_allOnes

/-- The byte format's reserved bits: `data[31:8]` (30_encoding.md R71). -/
theorem and_upper24_eq_zero (x : Word) : x &&& 0xFFFFFF00 = 0 ↔ x.extractLsb' 8 24 = 0 := by
  have hx : x.extractLsb' 8 24 ++ x.extractLsb' 0 8 = x := by
    rw [BitVec.extractLsb'_append_extractLsb'_eq_extractLsb' (by decide)]
    exact BitVec.extractLsb'_eq_self
  have hm : (0xFFFFFF00 : Word) = BitVec.allOnes 24 ++ (0 : BitVec 8) := by decide
  have key : ∀ (a : BitVec 24) (b : BitVec 8), (a ++ b) &&& (BitVec.allOnes 24 ++ (0 : BitVec 8)) = a ++ (0 : BitVec 8) := by
    intro a b
    rw [BitVec.and_append, BitVec.and_allOnes]
    exact congrArg (a ++ ·) BitVec.and_zero
  have hz : (0 : Word) = (0 : BitVec 24) ++ (0 : BitVec 8) := by decide
  conv_lhs => rw [← hx, hm]
  rw [key (BitVec.extractLsb' 8 24 x) (BitVec.extractLsb' 0 8 x), hz]
  exact BitVec.append_left_inj (0 : BitVec 8)

/-- The fields that a row's format reserves are 0 (30_encoding.md R71, R76). -/
def reservedZero (m : Mnemonic) (idx : BitVec 8) (data : Word) : Prop :=
  match m with
  | .init | .xform | .rdstat | .scrub => idx = 0 ∧ data = 0
  | .count => idx = 0
  | .ldb => data.extractLsb' 8 24 = 0
  | .rdacc | .rddg | .rdcnt => data = 0
  | .ldw | .wracc | .wrcnt => True

/-- The opcode of a row (30_encoding.md R74). -/
def opcodeOf (m : Mnemonic) : BitVec 8 :=
  match m with
  | .init => 0x01 | .count => 0x02 | .ldb => 0x03 | .ldw => 0x04 | .xform => 0x05 | .rdacc => 0x06
  | .rddg => 0x07 | .rdcnt => 0x08 | .rdstat => 0x09 | .scrub => 0x0A | .wracc => 0x0B | .wrcnt => 0x0C

theorem opcodeOf_inj {m n : Mnemonic} (h : opcodeOf m = opcodeOf n) : m = n := by
  revert h; cases m <;> cases n <;> decide

theorem opRow_pattern (m : Mnemonic) : (opRow m).pattern = cmdWord (opcodeOf m) 0 0 := by cases m <;> rfl

/-- The mask of a row by its fields: the opcode, the index where it is reserved, the reserved data bits. -/
def maskFields (m : Mnemonic) : BitVec 8 × Word :=
  match m with
  | .init | .xform | .rdstat | .scrub => (0xFF, 0xFFFFFFFF)
  | .count => (0xFF, 0)
  | .ldb => (0, 0xFFFFFF00)
  | .rdacc | .rddg | .rdcnt => (0, 0xFFFFFFFF)
  | .ldw | .wracc | .wrcnt => (0, 0)

theorem opRow_mask (m : Mnemonic) : (opRow m).mask = cmdWord 0xFF (maskFields m).1 (maskFields m).2 := by
  cases m <;> rfl

theorem maskFields_reserved (m : Mnemonic) (idx : BitVec 8) (data : Word) :
    (idx &&& (maskFields m).1 = 0 ∧ data &&& (maskFields m).2 = 0) ↔ reservedZero m idx data := by
  have z8 : idx &&& (0 : BitVec 8) = 0 := BitVec.and_zero
  have z32 : data &&& (0 : Word) = 0 := BitVec.and_zero
  cases m <;> simp only [maskFields, reservedZero, and_ones8, and_ones32, and_upper24_eq_zero, z8, z32, true_and, and_true]

/-- A row selects exactly the words of its opcode whose reserved bits are 0 (30_encoding.md R74, R76). -/
theorem opRow_selects (m : Mnemonic) (op idx : BitVec 8) (data : Word) :
    (opRow m).selects (cmdWord op idx data) = true ↔ op = opcodeOf m ∧ reservedZero m idx data := by
  rw [selects_fields _ _ _ _ _ _ _ (opRow_pattern m) (opRow_mask m), and_ones8, maskFields_reserved]

theorem opRow_name (m : Mnemonic) : (opRow m).name = m := by cases m <;> rfl

theorem mem_opRows (r : OpRow) : r ∈ opRows ↔ ∃ m, r = opRow m := by
  constructor
  · intro h
    simp only [opRows, List.mem_cons, List.not_mem_nil, or_false] at h
    rcases h with h | h | h | h | h | h | h | h | h | h | h | h <;> exact ⟨_, h⟩
  · rintro ⟨m, rfl⟩
    cases m <;> simp [opRows]

/-- A word that matches a row is decoded by that row: the rows are disjoint (30_encoding.md R74). -/
theorem decode_of_row (m : Mnemonic) (idx : BitVec 8) (data : Word) (h : reservedZero m idx data) :
    decode (cmdWord (opcodeOf m) idx data) =
      if (opRow m).inLimit idx then .command (operandsOf m idx data) else .outOfBounds := by
  have hf : opRows.find? (fun r => r.selects (cmdWord (opcodeOf m) idx data)) = some (opRow m) := by
    cases hc : opRows.find? (fun r => r.selects (cmdWord (opcodeOf m) idx data)) with
    | none =>
      rw [List.find?_eq_none] at hc
      exact absurd ((opRow_selects m _ idx data).mpr ⟨rfl, h⟩) (hc _ ((mem_opRows _).mpr ⟨m, rfl⟩))
    | some r =>
      obtain ⟨n, rfl⟩ := (mem_opRows r).mp (List.mem_of_find?_eq_some hc)
      have hs := ((opRow_selects n _ idx data).mp (by simpa using List.find?_some hc)).1
      rw [opcodeOf_inj hs]
  simp only [decode, hf, idxField_cmdWord, dataField_cmdWord, opRow_name]

/-- A word that matches no row is illegal (30_encoding.md R77). -/
theorem decode_illegal (op idx : BitVec 8) (data : Word) (h : ∀ m, op = opcodeOf m → ¬ reservedZero m idx data) :
    decode (cmdWord op idx data) = .illegal := by
  have hf : opRows.find? (fun r => r.selects (cmdWord op idx data)) = none := by
    rw [List.find?_eq_none]
    intro r hr
    obtain ⟨m, rfl⟩ := (mem_opRows r).mp hr
    intro hs
    obtain ⟨h1, h2⟩ := (opRow_selects m op idx data).mp hs
    exact h m h1 h2
  simp only [decode, hf]

/-! ### Commands and rows -/

/-- The row of a command. -/
def mnemonicOf : Instr → Mnemonic
  | .init => .init
  | .count _ => .count
  | .ldb _ _ => .ldb
  | .ldw _ _ => .ldw
  | .xform => .xform
  | .rdacc _ => .rdacc
  | .rddg _ => .rddg
  | .rdcnt _ => .rdcnt
  | .rdstat => .rdstat
  | .scrub => .scrub
  | .wracc _ _ => .wracc
  | .wrcnt _ _ => .wrcnt

/-- The index field of a command's word. -/
def idxOf : Instr → BitVec 8
  | .init | .count _ | .xform | .rdstat | .scrub => 0
  | .ldb k _ | .ldw k _ | .rdacc k | .rddg k | .rdcnt k | .wracc k _ | .wrcnt k _ => k

/-- The data field of a command's word. -/
def dataOf : Instr → Word
  | .init | .xform | .rdstat | .scrub | .rdacc _ | .rddg _ | .rdcnt _ => 0
  | .ldb _ b => b.setWidth 32
  | .count v | .ldw _ v | .wracc _ v | .wrcnt _ v => v

theorem byte_upper24 (b : Byte) : (b.setWidth 32).extractLsb' 8 24 = 0 := by
  apply BitVec.eq_of_toNat_eq
  simp; omega

theorem byte_low8 (b : Byte) : (b.setWidth 32).extractLsb' 0 8 = b := by
  apply BitVec.eq_of_toNat_eq
  simp; omega

theorem word_of_low8 {v : Word} (h : v.extractLsb' 8 24 = 0) : (v.extractLsb' 0 8).setWidth 32 = v := by
  apply BitVec.eq_of_toNat_eq
  have := congrArg BitVec.toNat h
  simp at this ⊢
  omega

theorem encode_eq (i : Instr) : encode i = cmdWord (opcodeOf (mnemonicOf i)) (idxOf i) (dataOf i) := by
  cases i <;> rfl

theorem reservedZero_fields (i : Instr) : reservedZero (mnemonicOf i) (idxOf i) (dataOf i) := by
  cases i
  case ldb k b => exact byte_upper24 b
  all_goals simp [reservedZero, mnemonicOf, idxOf, dataOf]

theorem operandsOf_fields (i : Instr) : operandsOf (mnemonicOf i) (idxOf i) (dataOf i) = i := by
  cases i
  case ldb k b => exact congrArg (Instr.ldb k) (byte_low8 b)
  all_goals rfl

theorem inLimit_wellFormed (i : Instr) : (opRow (mnemonicOf i)).inLimit (idxOf i) = i.wellFormed := by
  cases i <;> rfl

theorem encode_operandsOf (m : Mnemonic) (idx : BitVec 8) (data : Word) (h : reservedZero m idx data) :
    encode (operandsOf m idx data) = cmdWord (opcodeOf m) idx data := by
  cases m
  case ldb => exact congrArg (cmdWord 0x03 idx) (word_of_low8 h)
  case init | xform | rdstat | scrub => obtain ⟨rfl, rfl⟩ := h; rfl
  case count => cases h; rfl
  case rdacc | rddg | rdcnt => cases h; rfl
  case ldw | wracc | wrcnt => rfl

theorem wellFormed_operandsOf (m : Mnemonic) (idx : BitVec 8) (data : Word) :
    (operandsOf m idx data).wellFormed = (opRow m).inLimit idx := by cases m <;> rfl

/-- Everything that decoding can do, by the fields: one row is selected, or none. -/
theorem decode_cases (op idx : BitVec 8) (data : Word) :
    (∃ m, op = opcodeOf m ∧ reservedZero m idx data ∧ decode (cmdWord op idx data) =
      if (opRow m).inLimit idx then .command (operandsOf m idx data) else .outOfBounds) ∨
    ((∀ m, op = opcodeOf m → ¬ reservedZero m idx data) ∧ decode (cmdWord op idx data) = .illegal) := by
  by_cases h : ∃ m, op = opcodeOf m ∧ reservedZero m idx data
  · obtain ⟨m, rfl, h⟩ := h
    exact .inl ⟨m, rfl, h, decode_of_row m idx data h⟩
  · push Not at h
    exact .inr ⟨h, decode_illegal op idx data h⟩

/-- The twelve opcodes are 1 to 12 (30_encoding.md R74, R77). -/
theorem exists_opcodeOf (op : BitVec 8) : (∃ m, op = opcodeOf m) ↔ 1 ≤ op.toNat ∧ op.toNat ≤ 12 := by
  constructor
  · rintro ⟨m, rfl⟩; cases m <;> decide
  · rintro ⟨h1, h2⟩
    have hall : ∀ n : Fin 13, 1 ≤ n.val → ∃ m, BitVec.ofNat 8 n.val = opcodeOf m := by
      intro n hn
      have hs : ∀ n : Fin 13, 1 ≤ n.val → [Mnemonic.init, .count, .ldb, .ldw, .xform, .rdacc, .rddg, .rdcnt, .rdstat,
          .scrub, .wracc, .wrcnt].any (fun m => BitVec.ofNat 8 n.val == opcodeOf m) = true := by decide
      obtain ⟨m, _, hm⟩ := List.any_eq_true.mp (hs n hn)
      exact ⟨m, by simpa using hm⟩
    obtain ⟨m, hm⟩ := hall ⟨op.toNat, by omega⟩ h1
    exact ⟨m, by rw [← hm]; simp⟩

end Sys2Proof
end

