-- ==== Sys2Proof/Laws/Status.lean ====
section
/-! SUPPORT. The fields of the status view (10_state.md R30) and the count of valid bits (R27). -/

namespace Sys2Proof.Machine

theorem State.status_active (s : State) : s.status.extractLsb' 0 1 = s.activeBit :=
  BitVec.extractLsb'_append_eq_right

theorem State.status_low_reserved (s : State) : s.status.extractLsb' 1 3 = 0 := by
  unfold State.status
  rw [BitVec.extractLsb'_append_eq_of_le (by decide)]
  exact BitVec.extractLsb'_append_eq_right

theorem State.status_err (s : State) : s.status.extractLsb' 4 4 = s.err := by
  unfold State.status
  rw [BitVec.extractLsb'_append_eq_of_le (by decide), BitVec.extractLsb'_append_eq_of_le (by decide)]
  exact BitVec.extractLsb'_append_eq_right

theorem State.status_fill (s : State) : s.status.extractLsb' 8 7 = BitVec.ofNat 7 s.fill := by
  unfold State.status
  rw [BitVec.extractLsb'_append_eq_of_le (by decide), BitVec.extractLsb'_append_eq_of_le (by decide),
    BitVec.extractLsb'_append_eq_of_le (by decide)]
  exact BitVec.extractLsb'_append_eq_right

theorem State.status_full (s : State) : s.status.extractLsb' 15 1 = BitVec.ofBool s.full := by
  unfold State.status
  rw [BitVec.extractLsb'_append_eq_of_le (by decide), BitVec.extractLsb'_append_eq_of_le (by decide),
    BitVec.extractLsb'_append_eq_of_le (by decide), BitVec.extractLsb'_append_eq_of_le (by decide)]
  exact BitVec.extractLsb'_append_eq_right

theorem State.status_index (s : State) : s.status.extractLsb' 16 6 = s.index := by
  unfold State.status
  rw [BitVec.extractLsb'_append_eq_of_le (by decide), BitVec.extractLsb'_append_eq_of_le (by decide),
    BitVec.extractLsb'_append_eq_of_le (by decide), BitVec.extractLsb'_append_eq_of_le (by decide),
    BitVec.extractLsb'_append_eq_of_le (by decide)]
  exact BitVec.extractLsb'_append_eq_right

theorem State.status_high_reserved (s : State) : s.status.extractLsb' 22 10 = 0 := by
  unfold State.status
  rw [BitVec.extractLsb'_append_eq_of_le (by decide), BitVec.extractLsb'_append_eq_of_le (by decide),
    BitVec.extractLsb'_append_eq_of_le (by decide), BitVec.extractLsb'_append_eq_of_le (by decide),
    BitVec.extractLsb'_append_eq_of_le (by decide)]
  exact BitVec.extractLsb'_append_eq_left

/-- A bit is the field of width 1 at its place. -/
theorem getLsbD_of_field {n : Nat} (v : BitVec n) (i : Nat) : v.getLsbD i = (v.extractLsb' i 1).getLsbD 0 := by
  simp

theorem State.fill_le (s : State) : s.fill ≤ 64 := by
  have := List.countP_le_length (p := fun i => s.blkv.getLsbD i) (l := List.range 64)
  simpa [State.fill, popcount64] using this

/-- The INDEX that UPDATE reads from a status word (45_host_sequences.md R201). -/
theorem statusIndex_status (s : State) : statusIndex s.status = s.index.toNat := by
  rw [statusIndex, State.status_index]

end Sys2Proof.Machine
end

