-- ==== Sys2Proof/Laws/HostSequences.lean ====
section
/-! SUPPORT. The host sequences, byte by byte: how the commands of UPDATE split, and how a list of commands is issued
(45_host_sequences.md R200 to R215). -/

namespace Sys2Proof.Machine

/-! ### Issuing commands -/

@[simp] theorem issueAll_nil (s : State) : issueAll [] s = .next s := rfl

@[simp] theorem issueAll_cons (i : Instr) (rest : List Instr) (s : State) :
    issueAll (i :: rest) s = andThen (exec i s) (issueAll rest) := rfl

theorem andThen_assoc {α : Type} (o : Host.Outcome State Fault Refusal)
    (f : State → Host.Outcome State Fault Refusal) (g : State → Host.Outcome α Fault Refusal) :
    andThen (andThen o f) g = andThen o fun s => andThen (f s) g := by cases o <;> rfl

/-- Issuing two lists in a row is issuing the one after the other. -/
theorem issueAll_append (is js : List Instr) (s : State) :
    issueAll (is ++ js) s = andThen (issueAll is s) (issueAll js) := by
  induction is generalizing s with
  | nil => rfl
  | cons i is ih =>
    simp only [List.cons_append, issueAll_cons, andThen_assoc]
    cases exec i s with
    | next t => exact ih t
    | fault r => rfl
    | refused r => rfl

/-- LDB at an index inside the block, in ACTIVE. -/
theorem exec_ldb_at {s : State} (h : s.phase = .active) (i : Fin 64) (b : Byte) :
    exec (.ldb (BitVec.ofNat 8 i.val) b) s = .next ((s.storeByte i b).respond 0) := by
  simp [exec, execLdb, indexIn_ofNat i (by decide), State.ifActive_active h]

/-- LDW at an index inside the block, in ACTIVE. -/
theorem exec_ldw_at {s : State} (h : s.phase = .active) (j : Fin 16) (v : Word) :
    exec (.ldw (BitVec.ofNat 8 j.val) v) s = .next ((s.storeWord j v).respond 0) := by
  simp [exec, execLdw, indexIn_ofNat j (by decide), State.ifActive_active h]

/-- RDDG at an index inside the digest, in ACTIVE. -/
theorem exec_rddg_at {s : State} (h : s.phase = .active) (k : Fin 16) :
    exec (.rddg (BitVec.ofNat 8 k.val)) s = .next (s.respond ((digestByte s.acc k).setWidth 32)) := by
  simp [exec, execRddg, indexIn_ofNat k (by decide), State.ifActive_active h]

/-- RDCNT at an index of the counter, in ACTIVE. -/
theorem exec_rdcnt_at {s : State} (h : s.phase = .active) (i : Fin 2) :
    exec (.rdcnt (BitVec.ofNat 8 i.val)) s = .next (s.respond s.cnt[i]) := by
  simp [exec, execRdcnt, indexIn_ofNat i (by decide), State.ifActive_active h]

/-- COUNT in ACTIVE. -/
theorem exec_count_active {s : State} (h : s.phase = .active) (len : Word) :
    exec (.count len) s = .next ((s.advance len).respond 0) := by
  simp [exec, execCount, State.ifActive_active h]

/-- XFORM in ACTIVE with a full block. -/
theorem exec_xform_active {s : State} (h : s.phase = .active) (hf : s.full = true) :
    exec .xform s = .next (s.transform.respond 0) := by
  simp [exec, execXform, State.ifActive_active h, hf]

/-! ### The commands of UPDATE, byte by byte -/

@[simp] theorem loadFrom_nil (pos : Nat) : loadFrom pos [] = [] := rfl

@[simp] theorem loadFrom_cons (pos : Nat) (b : Byte) (m : List Byte) :
    loadFrom pos (b :: m) = .ldb (BitVec.ofNat 8 pos) b :: loadFrom (pos + 1) m := rfl

/-- The bound on the number of windows does not matter once it is large enough. -/
theorem loadWindows_bound {f g : Nat} {m : List Byte} (hf : m.length ≤ f) (hg : m.length ≤ g) :
    loadWindows f m = loadWindows g m := by
  induction f generalizing g m with
  | zero =>
    have hm : m = [] := List.length_eq_zero_iff.mp (by omega)
    subst hm
    cases g <;> simp [loadWindows]
  | succ f ih =>
    cases g with
    | zero =>
      have hm : m = [] := List.length_eq_zero_iff.mp (by omega)
      subst hm
      simp [loadWindows]
    | succ g =>
      simp only [loadWindows]
      split
      · rw [ih (g := g)] <;> simp only [List.length_drop] <;> omega
      · rfl

/-- Whole windows are what UPDATE does with an empty buffer. -/
theorem loadWindows_eq_feed {f : Nat} {m : List Byte} (hf : m.length ≤ f) : loadWindows f m = feedCommands 0 m := by
  unfold feedCommands
  rw [loadWindows_bound hf (g := m.length + 1) (by omega)]
  simp [loadWindows]

theorem feedCommands_nil {i : Nat} (hi : i < 64) : feedCommands i [] = [] := by
  rw [feedCommands, if_neg (by simp; omega)]
  rfl

/-- UPDATE takes its bytes one by one: the byte is loaded at the index, and after index 63 the block is transformed. -/
theorem feedCommands_cons {i : Nat} (hi : i < 64) (b : Byte) (m : List Byte) :
    feedCommands i (b :: m) =
      .ldb (BitVec.ofNat 8 i) b :: if i = 63 then .xform :: feedCommands 0 m else feedCommands (i + 1) m := by
  by_cases h : i = 63
  · subst h
    rw [if_pos rfl, feedCommands, if_pos (by simp)]
    simp [loadWindows_eq_feed (f := m.length + 1) (m := m) (by omega)]
  · rw [if_neg h]
    obtain ⟨n, hn⟩ : ∃ n, 64 - i = n + 1 := ⟨63 - i, by omega⟩
    have hn' : 64 - (i + 1) = n := by omega
    simp only [feedCommands, hn, hn', List.length_cons]
    by_cases hl : n ≤ m.length
    · rw [if_pos (by omega), if_pos hl]
      simp only [List.take_succ_cons, loadFrom_cons, List.cons_append, List.drop_succ_cons]
      rw [loadWindows_bound (f := m.length + 1) (g := m.length)] <;> simp only [List.length_drop] <;> omega
    · rw [if_neg (by omega), if_neg hl]
      rfl

/-- The commands for two byte strings in a row are those for their join: only the index carries over. -/
theorem feedCommands_append {i : Nat} (hi : i < 64) (m n : List Byte) :
    feedCommands i (m ++ n) = feedCommands i m ++ feedCommands ((i + m.length) % 64) n := by
  induction m generalizing i with
  | nil => simp [feedCommands_nil hi, Nat.mod_eq_of_lt hi]
  | cons b m ih =>
    rw [List.cons_append, feedCommands_cons hi, feedCommands_cons hi]
    by_cases h : i = 63
    · subst h
      rw [if_pos rfl, if_pos rfl, ih (by omega)]
      simp only [List.cons_append, List.length_cons]
      congr 4
      omega
    · rw [if_neg h, if_neg h, ih (by omega)]
      simp only [List.cons_append, List.length_cons]
      congr 4
      omega

/-- One transform for each block that the bytes complete. -/
theorem feedCommands_count_xform {i : Nat} (hi : i < 64) (m : List Byte) :
    (feedCommands i m).count .xform = (i + m.length) / 64 := by
  induction m generalizing i with
  | nil => simp [feedCommands_nil hi]; omega
  | cons b m ih =>
    rw [feedCommands_cons hi, List.count_cons_of_ne (by simp)]
    by_cases h : i = 63
    · subst h
      rw [if_pos rfl, List.count_cons_self, ih (by omega), List.length_cons]
      omega
    · rw [if_neg h, ih (by omega), List.length_cons]
      congr 1
      omega

/-! ### What UPDATE's loads and transforms do -/

/-- UPDATE is RDSTAT and then its commands for the INDEX of the state, in either phase. -/
theorem runUpdate_eq (m : List Byte) (s : State) :
    runUpdate m s = issueAll (.rdstat :: updateCommands s.index.toNat m) s := by
  have h1 : exec .rdstat s = .next (s.respond s.status) := rfl
  simp only [runUpdate, issueAll_cons, h1, andThen_next, lastData_respond, statusIndex_status]

/-- UPDATE in ACTIVE: RDSTAT, COUNT, then the commands for the bytes from the index. -/
theorem runUpdate_active (m : List Byte) {s : State} (hp : s.phase = .active) :
    runUpdate m s = issueAll (feedCommands s.index.toNat m)
      (((s.respond s.status).advance (BitVec.ofNat 32 m.length)).respond 0) := by
  have h1 : exec .rdstat s = .next (s.respond s.status) := rfl
  simp only [runUpdate, h1, andThen_next, updateCommands, lastData_respond, statusIndex_status, issueAll_cons]
  rw [exec_count_active (by simpa using hp), andThen_next]

/-- The first `i` bytes of the block hold values and no others. -/
def State.FilledTo (s : State) (i : Nat) : Prop := ∀ k : Fin 64, s.blkv.getLsbD k.val = decide (k.val < i)

theorem State.FilledTo.full {s : State} (h : s.FilledTo 64) : s.full = true := by
  rw [State.full_iff]
  apply BitVec.eq_of_getLsbD_eq
  intro k hk
  rw [BitVec.getLsbD_allOnes]
  exact h ⟨k, hk⟩

/-- A byte loaded at the first free index fills the block one further. -/
theorem State.FilledTo.storeByte {s : State} {i : Fin 64} (h : s.FilledTo i.val) (b : Byte) (v : Word) :
    ((s.storeByte i b).respond v).FilledTo (i.val + 1) := by
  intro k
  have hk := h k
  simp only [State.respond_blkv, storeByte_blkv_bit _ _ _ _ k.isLt, hk]
  rw [← Bool.decide_or]
  exact decide_eq_decide.mpr (by omega)

theorem State.FilledTo.transform (s : State) (v : Word) : (s.transform.respond v).FilledTo 0 := by
  intro k; simp

/-- From a block that is filled to `i`, the commands for `m` are all performed: phase, counter, ERR and input stay, each
answers OK with data 0, and the block is filled to `i + m.length` modulo 64. -/
theorem issueAll_feed (m : List Byte) {i : Nat} (hi : i < 64) {s : State} (hp : s.phase = .active)
    (hf : s.FilledTo i) :
    ∃ t, issueAll (feedCommands i m) s = .next t ∧ t.phase = .active ∧ t.cnt = s.cnt ∧ t.err = s.err ∧
      t.input = s.input ∧ t.FilledTo ((i + m.length) % 64) ∧
      t.rsps = List.replicate (feedCommands i m).length (rspWord 0 0) ++ s.rsps := by
  induction m generalizing i s with
  | nil => exact ⟨s, by simp [feedCommands_nil hi], hp, rfl, rfl, rfl, by simpa [Nat.mod_eq_of_lt hi] using hf, by
      simp [feedCommands_nil hi]⟩
  | cons b m ih =>
    have hf1 := State.FilledTo.storeByte (i := ⟨i, hi⟩) hf b 0
    rw [feedCommands_cons hi, issueAll_cons, exec_ldb_at hp ⟨i, hi⟩ b, andThen_next]
    by_cases h : i = 63
    · subst h
      rw [if_pos rfl, issueAll_cons, exec_xform_active (by simpa using hp) hf1.full, andThen_next]
      obtain ⟨t, h1, h2, h3, h4, h5, h6, h7⟩ := ih (i := 0) (by omega)
        (s := (((s.storeByte ⟨63, hi⟩ b).respond 0).transform.respond 0)) (by simpa using hp)
        (State.FilledTo.transform _ 0)
      refine ⟨t, h1, h2, by simpa using h3, by simpa using h4, by simpa using h5, ?_, ?_⟩
      · have : (63 + (b :: m).length) % 64 = (0 + m.length) % 64 := by simp; omega
        rwa [this]
      · rw [h7]
        simp [List.replicate_succ', State.respond, State.answer]
    · rw [if_neg h]
      obtain ⟨t, h1, h2, h3, h4, h5, h6, h7⟩ := ih (i := i + 1) (by omega)
        (s := ((s.storeByte ⟨i, hi⟩ b).respond 0)) (by simpa using hp) hf1
      refine ⟨t, h1, h2, by simpa using h3, by simpa using h4, by simpa using h5, ?_, ?_⟩
      · have : (i + (b :: m).length) % 64 = (i + 1 + m.length) % 64 := by simp; omega
        rwa [this]
      · rw [h7]
        simp [List.replicate_succ', State.respond, State.answer]

/-- The first bytes of the block are those of the list. -/
def State.Holds (s : State) (buf : List Byte) : Prop :=
  ∀ k, k < buf.length → Memory.lookup s.blk k = some (buf.getD k 0)

theorem State.Holds.storeByte {s : State} {buf : List Byte} (h : s.Holds buf) (hl : buf.length < 64) (b : Byte)
    (v : Word) : ((s.storeByte ⟨buf.length, hl⟩ b).respond v).Holds (buf ++ [b]) := by
  intro k hk
  rw [List.length_append, List.length_singleton] at hk
  rw [State.respond_blk, State.storeByte_lookup]
  by_cases h1 : k = buf.length
  · simp [h1]
  · rw [if_neg h1, h k (by omega)]
    simp [List.getElem?_append_left (show k < buf.length by omega)]

theorem State.Holds.nil (s : State) : s.Holds [] := by
  intro k hk
  simp at hk

/-- A full block is read as the list that it holds. -/
theorem State.Holds.blockBytes {s : State} {buf : List Byte} (h : s.Holds buf) (hl : buf.length = 64) :
    s.blockBytes = blockOfBytes buf := by
  apply Vector.ext
  intro k hk
  simp only [State.blockBytes, blockOfBytes, Vector.getElem_ofFn]
  exact Memory.read_of_lookup (h k (by omega))

/-- The commands for `m`, from a block that holds `buf`, leave in ACC the iterated transform over the complete blocks of
`buf ++ m`, and in the block what is left of it. -/
theorem issueAll_feed_acc (m : List Byte) {buf : List Byte} (hl : buf.length < 64) {s : State}
    (hp : s.phase = .active) (hf : s.FilledTo buf.length) (hb : s.Holds buf) :
    ∃ t, issueAll (feedCommands buf.length m) s = .next t ∧
      t.acc = iterateBlocks ((buf.length + m.length) / 64) s.acc (buf ++ m) ∧
      t.Holds ((buf ++ m).drop (64 * ((buf.length + m.length) / 64))) := by
  induction m generalizing buf s with
  | nil =>
    have h0 : (buf.length + ([] : List Byte).length) / 64 = 0 := by simp; omega
    exact ⟨s, by simp [feedCommands_nil hl], by rw [h0]; rfl, by rw [h0]; simpa using hb⟩
  | cons b m ih =>
    have hf1 := State.FilledTo.storeByte (i := ⟨buf.length, hl⟩) hf b 0
    have hb1 := hb.storeByte hl b 0
    have hj : buf ++ b :: m = (buf ++ [b]) ++ m := by simp
    rw [feedCommands_cons hl, issueAll_cons, exec_ldb_at hp ⟨buf.length, hl⟩ b, andThen_next]
    by_cases h : buf.length = 63
    · have hl1 : (buf ++ [b]).length = 64 := by simp [h]
      have hd : ((buf ++ [b]) ++ m).drop 64 = m := List.drop_left' hl1
      have ht : ((buf ++ [b]) ++ m).take 64 = buf ++ [b] := List.take_left' hl1
      rw [if_pos h, issueAll_cons, exec_xform_active (by simpa using hp)
        (State.FilledTo.full (by simpa [h] using hf1)), andThen_next]
      obtain ⟨t, h1, h2, h3⟩ := ih (buf := []) (by simp)
        (s := (((s.storeByte ⟨buf.length, hl⟩ b).respond 0).transform.respond 0)) (by simpa using hp)
        (State.FilledTo.transform _ 0) (State.Holds.nil _)
      have hn : (buf.length + (b :: m).length) / 64 = ([].length (α := Byte) + m.length) / 64 + 1 := by
        simp; omega
      refine ⟨t, h1, ?_, ?_⟩
      · rw [h2, hn, hj, iterateBlocks, hd, ht]
        simp only [State.respond_acc, State.transform_acc, State.storeByte_acc, hb1.blockBytes hl1, List.nil_append]
      · rw [hn, hj, Nat.mul_add, Nat.add_comm, ← List.drop_drop, Nat.mul_one, hd]
        simpa using h3
    · rw [if_neg h]
      have hl1 : (buf ++ [b]).length = buf.length + 1 := by simp
      obtain ⟨t, h1, h2, h3⟩ := ih (buf := buf ++ [b]) (by omega)
        (s := ((s.storeByte ⟨buf.length, hl⟩ b).respond 0)) (by simpa using hp) (by rw [hl1]; exact hf1) hb1
      have hn : (buf ++ [b]).length + m.length = buf.length + (b :: m).length := by simp; omega
      rw [hl1] at h1
      rw [hn, ← hj] at h2 h3
      exact ⟨t, h1, by simpa using h2, h3⟩

/-! ### The iterated transform -/

/-- Blocks in two groups: the second group starts where the first has ended. -/
theorem iterateBlocks_add (a b : Nat) (acc : Quad) (m : List Byte) :
    iterateBlocks (a + b) acc m = iterateBlocks b (iterateBlocks a acc m) (m.drop (64 * a)) := by
  induction a generalizing acc m with
  | zero => simp [iterateBlocks]
  | succ a ih =>
    rw [show a + 1 + b = (a + b) + 1 by omega, iterateBlocks, iterateBlocks, ih, List.drop_drop,
      show 64 + 64 * a = 64 * (a + 1) by omega]

/-- Bytes beyond the blocks that are transformed do not matter. -/
theorem iterateBlocks_append (n : Nat) (acc : Quad) (m more : List Byte) (h : 64 * n ≤ m.length) :
    iterateBlocks n acc (m ++ more) = iterateBlocks n acc m := by
  induction n generalizing acc m with
  | zero => rfl
  | succ n ih =>
    rw [iterateBlocks, iterateBlocks, List.take_append_of_le_length (by omega),
      List.drop_append_of_le_length (by omega), ih]
    rw [List.length_drop]
    omega

/-! ### Loads and transforms read neither the counter nor the responses -/

/-- The two states agree on what LDB and XFORM read and write. -/
def AgreeOffCounter (s t : State) : Prop :=
  t.acc = s.acc ∧ t.blk = s.blk ∧ t.blkv = s.blkv ∧ t.phase = s.phase ∧ t.err = s.err

theorem agreeOffCounter_refl (s : State) : AgreeOffCounter s s := ⟨rfl, rfl, rfl, rfl, rfl⟩

/-- Then the commands for `m` are performed alike from both, and leave states that agree again, each with its own
counter. -/
theorem issueAll_feed_agree (m : List Byte) {i : Nat} (hi : i < 64) {s s' : State} (hp : s.phase = .active)
    (hf : s.FilledTo i) (h : AgreeOffCounter s s') :
    ∃ t t', issueAll (feedCommands i m) s = .next t ∧ issueAll (feedCommands i m) s' = .next t' ∧
      AgreeOffCounter t t' := by
  induction m generalizing i s s' with
  | nil => exact ⟨s, s', by simp [feedCommands_nil hi], by simp [feedCommands_nil hi], h⟩
  | cons b m ih =>
    obtain ⟨ha, hb, hv, hq, he⟩ := h
    have hf' : s'.FilledTo i := fun k => by rw [hv]; exact hf k
    have hp' : s'.phase = .active := hq.trans hp
    have hf1 := State.FilledTo.storeByte (i := ⟨i, hi⟩) hf b 0
    have hf2 := State.FilledTo.storeByte (i := ⟨i, hi⟩) hf' b 0
    have h1 : AgreeOffCounter ((s.storeByte ⟨i, hi⟩ b).respond 0) ((s'.storeByte ⟨i, hi⟩ b).respond 0) :=
      ⟨ha, by simp [hb], by simp [hv], hq, he⟩
    rw [feedCommands_cons hi, issueAll_cons, issueAll_cons, exec_ldb_at hp ⟨i, hi⟩ b, exec_ldb_at hp' ⟨i, hi⟩ b,
      andThen_next, andThen_next]
    by_cases hx : i = 63
    · subst hx
      obtain ⟨ha1, hb1, hv1, hq1, he1⟩ := h1
      rw [if_pos rfl, issueAll_cons, issueAll_cons, exec_xform_active (by simpa using hp) hf1.full,
        exec_xform_active (by simpa using hp') hf2.full, andThen_next, andThen_next]
      refine ih (by omega) (by simpa using hp) (State.FilledTo.transform _ 0) ⟨?_, by simp, by simp, hq1, he1⟩
      simp only [State.respond_acc, State.transform_acc, State.blockBytes, hb1] at ha1 ⊢
      rw [ha1]
    · rw [if_neg hx]
      exact ih (by omega) (by simpa using hp) hf1 h1

end Sys2Proof.Machine
end

