-- ==== Sys2Proof/Laws/PerInstr.lean ====
section
/-! SUPPORT. Statements for all commands, one lemma per constructor.  Family EncodedRow: the command's word is selected by
the row of the command's own mnemonic, so that no reserved bit is set in an encoding (30_encoding.md R74, R76). -/

namespace Sys2Proof.Laws.EncodedRow

/-- The row of the command's mnemonic selects the command's word. -/
def Statement (i : Instr) : Prop := (opRow (mnemonicOf i)).selects (encode i) = true

theorem of_fields (i : Instr) : Statement i := by
  rw [Statement, encode_eq]
  exact (opRow_selects _ _ _ _).mpr ⟨rfl, reservedZero_fields i⟩

theorem init : Statement .init := of_fields _

theorem count (len : Word) : Statement (.count len) := of_fields _

theorem ldb (pos : BitVec 8) (byte : Byte) : Statement (.ldb pos byte) := of_fields _

theorem ldw (wordIndex : BitVec 8) (word : Word) : Statement (.ldw wordIndex word) := of_fields _

theorem xform : Statement .xform := of_fields _

theorem rdacc (i : BitVec 8) : Statement (.rdacc i) := of_fields _

theorem rddg (k : BitVec 8) : Statement (.rddg k) := of_fields _

theorem rdcnt (i : BitVec 8) : Statement (.rdcnt i) := of_fields _

theorem rdstat : Statement .rdstat := of_fields _

theorem scrub : Statement .scrub := of_fields _

theorem wracc (i : BitVec 8) (word : Word) : Statement (.wracc i word) := of_fields _

theorem wrcnt (i : BitVec 8) (word : Word) : Statement (.wrcnt i word) := of_fields _

end Sys2Proof.Laws.EncodedRow
end

