-- ==== Sys2Proof/Tests/Slice0.lean ====
section
/-! SUPPORT. The model's own tests: the checks of WellFormed, decoding, one small run or two for each command with the
results of 95_test_vectors.md, and a witness for the hypotheses of each statement. -/

namespace Sys2Proof.Tests

open Sys2Proof Sys2Proof.Machine

/-! ### Well-formedness: a well-formed and an ill-formed term for each check (R75) -/

theorem test_wellFormed_ldb : (Instr.ldb 63 0).wellFormed = true ∧ (Instr.ldb 64 0).wellFormed = false := by decide
theorem test_wellFormed_ldw : (Instr.ldw 15 0).wellFormed = true ∧ (Instr.ldw 16 0).wellFormed = false := by decide
theorem test_wellFormed_rdacc : (Instr.rdacc 3).wellFormed = true ∧ (Instr.rdacc 4).wellFormed = false := by decide
theorem test_wellFormed_rddg : (Instr.rddg 15).wellFormed = true ∧ (Instr.rddg 16).wellFormed = false := by decide
theorem test_wellFormed_rdcnt : (Instr.rdcnt 1).wellFormed = true ∧ (Instr.rdcnt 2).wellFormed = false := by decide
theorem test_wellFormed_wracc : (Instr.wracc 3 0).wellFormed = true ∧ (Instr.wracc 4 0).wellFormed = false := by decide
theorem test_wellFormed_wrcnt : (Instr.wrcnt 1 0).wellFormed = true ∧ (Instr.wrcnt 2 0).wellFormed = false := by decide

/-! ### Decoding: words written out as op, idx and data of the formats of R71 and the opcodes of R74 -/

theorem test_decode_init :
    decode (0b00000001#8 ++ 0b00000000#8 ++ 0x00000000#32) = .command .init := by decide
theorem test_decode_count :
    decode (0b00000010#8 ++ 0b00000000#8 ++ 0x1FFFFFFF#32) = .command (.count 0x1FFFFFFF) := by decide
theorem test_decode_ldb :
    decode (0b00000011#8 ++ 0b00111111#8 ++ 0x000000FF#32) = .command (.ldb 63 0xFF) := by decide
theorem test_decode_ldw :
    decode (0b00000100#8 ++ 0b00001111#8 ++ 0x04030201#32) = .command (.ldw 15 0x04030201) := by decide
theorem test_decode_xform :
    decode (0b00000101#8 ++ 0b00000000#8 ++ 0x00000000#32) = .command .xform := by decide
theorem test_decode_rdacc :
    decode (0b00000110#8 ++ 0b00000011#8 ++ 0x00000000#32) = .command (.rdacc 3) := by decide
theorem test_decode_rddg :
    decode (0b00000111#8 ++ 0b00001111#8 ++ 0x00000000#32) = .command (.rddg 15) := by decide
theorem test_decode_rdcnt :
    decode (0b00001000#8 ++ 0b00000001#8 ++ 0x00000000#32) = .command (.rdcnt 1) := by decide
theorem test_decode_rdstat :
    decode (0b00001001#8 ++ 0b00000000#8 ++ 0x00000000#32) = .command .rdstat := by decide
theorem test_decode_scrub :
    decode (0b00001010#8 ++ 0b00000000#8 ++ 0x00000000#32) = .command .scrub := by decide
theorem test_decode_wracc :
    decode (0b00001011#8 ++ 0b00000000#8 ++ 0x67452301#32) = .command (.wracc 0 0x67452301) := by decide
theorem test_decode_wrcnt :
    decode (0b00001100#8 ++ 0b00000000#8 ++ 0xFFFFFFF8#32) = .command (.wrcnt 0 0xFFFFFFF8) := by decide
/-- Opcode 0, an undefined opcode, one reserved bit in each format that has some (R76). -/
theorem test_decode_illegal :
    decode 0 = .illegal ∧ decode 0x0D0000000000 = .illegal ∧ decode 0x010100000000 = .illegal ∧
    decode 0x020100000000 = .illegal ∧ decode 0x030000000100 = .illegal ∧ decode 0x060080000000 = .illegal := by decide
/-- The first index beyond each limit (R75). -/
theorem test_decode_outOfBounds :
    decode 0x034000000000 = .outOfBounds ∧ decode 0x041000000000 = .outOfBounds ∧
    decode 0x060400000000 = .outOfBounds ∧ decode 0x071000000000 = .outOfBounds ∧
    decode 0x080200000000 = .outOfBounds ∧ decode 0x0B0400000000 = .outOfBounds ∧
    decode 0x0C0200000000 = .outOfBounds := by decide
/-- A row's words are not cut off by the table's numbering (R82), and a longer number is no command word. -/
theorem test_decodeTableWord :
    decodeTableWord 48 0x033F000000FF = some (.ldb 63 0xFF) ∧ tableWord 64 0x01033F000000FF = none := by decide

/-! ### States for the tests -/

/-- ACTIVE, the accumulator as INIT leaves it, the counter and the block as given. -/
def activeWith (cnt : Vector Word 2) (blk : List Host.Cell) (blkv : BitVec 64) : State :=
  { State.reset with acc := iv, cnt := cnt, blk := blk, blkv := blkv, phase := .active }

/-- Just after INIT from reset, no response recorded. -/
def fresh : State := activeWith #v[0, 0] [] 0

/-- The cells of the byte `first` at index 0 and of zeros at the other 63. -/
def oneByteThenZeros (first : Byte) : List Host.Cell :=
  (0, first) :: (List.range' 1 63).map fun k => (k, 0)

/-- The block of vector T1: the padded empty message. -/
def emptyPadded : State := activeWith #v[0x200, 0] (oneByteThenZeros 0x80) 0xFFFFFFFFFFFFFFFF

/-- The accumulator of vector T1 after the transform. -/
def hashed : State := { fresh with acc := #v[0xE0CFD631, 0x31E96AD1, 0xD7593CB7, 0xC089C0E0] }

/-- A next state that meets `p`. -/
def next (o : Host.Outcome State Fault Refusal) (p : State → Bool) : Bool :=
  match o with
  | .next t => p t
  | .fault _ => false
  | .refused _ => false

/-! ### One command at a time, with the results of 95_test_vectors.md -/

/-- R100: ACC is IV, the phase ACTIVE, and ERR stays. -/
theorem test_init : next (exec .init { State.reset with err := 4 }) (fun t =>
    t.acc == #v[0x67452301, 0xEFCDAB89, 0x98BADCFE, 0x10325476] && t.phase == .active && t.err == 4 &&
      t.rsps == [0x0000000000]) = true := by decide
/-- Vectors C8 and C7: the carry, and the three high bits of the length. -/
theorem test_count_carry : next (exec (.count 1) (activeWith #v[0xFFFFFFF8, 0] [] 0)) (fun t =>
    t.cnt == #v[0, 1]) = true := by decide
theorem test_count_high : next (exec (.count 0xFFFFFFFF) fresh) (fun t => t.cnt == #v[0xFFFFFFF8, 7]) = true := by decide
/-- Vector L2, and the first index that is out of bounds (R233). -/
theorem test_ldb : next (exec (.ldb 63 0xFF) (activeWith #v[0, 0] [(0, 0x61)] 1)) (fun t =>
    t.blk == [(0, 0x61), (63, 0xFF)] && t.blkv == 0x8000000000000001) = true := by decide
theorem test_ldb_bounds : next (exec (.ldb 64 0xFF) State.reset) (fun t =>
    t.err == 3 && t.rsps == [0x0300000000]) = true := by decide
/-- Vector L5. -/
theorem test_ldw : next (exec (.ldw 15 0x04030201) fresh) (fun t =>
    t.blk == [(60, 1), (61, 2), (62, 3), (63, 4)] && t.blkv == 0xF000000000000000) = true := by decide
/-- Vector T1, and program P5: an incomplete block is rejected and stays. -/
theorem test_xform : next (exec .xform emptyPadded) (fun t =>
    t.acc == #v[0xE0CFD631, 0x31E96AD1, 0xD7593CB7, 0xC089C0E0] && t.blkv == 0 && t.blk == []) = true := by
  set_option maxRecDepth 20000 in decide
theorem test_xform_incomplete : next (exec .xform (activeWith #v[8, 0] [(0, 0x61)] 1)) (fun t =>
    t.acc == iv && t.blkv == 1 && t.err == 4 && t.rsps == [0x0400000000]) = true := by decide
/-- R180: ACC[1] just after INIT. -/
theorem test_rdacc : next (exec (.rdacc 1) fresh) (fun t => t.rsps == [0x00EFCDAB89]) = true := by decide
/-- Program P1, commands 25 and 40: the first and the last digest byte. -/
theorem test_rddg : next (exec (.rddg 0) hashed) (fun t => t.rsps == [0x0000000031]) = true ∧
    next (exec (.rddg 15) hashed) (fun t => t.rsps == [0x00000000C0]) = true := by decide
/-- Program P5, command 8: no digest in IDLE. -/
theorem test_rddg_idle : next (exec (.rddg 0) State.reset) (fun t => t.rsps == [0x0200000000] && t.err == 2) = true := by
  decide
/-- Program P4, command 6. -/
theorem test_rdcnt : next (exec (.rdcnt 1) (activeWith #v[0, 1] [] 0)) (fun t => t.rsps == [0x0000000001]) = true := by
  decide
/-- Program P5, commands 5 and 9: ERR 4, one byte, INDEX 1, ACTIVE; and in IDLE the error alone. -/
theorem test_rdstat : next (exec .rdstat { activeWith #v[8, 0] [(0, 0x61)] 1 with err := 4 }) (fun t =>
    t.rsps == [0x0000010141]) = true := by decide
theorem test_rdstat_idle : next (exec .rdstat { State.reset with err := 4 }) (fun t =>
    t.rsps == [0x0000000040]) = true := by decide
/-- R101: everything but ERR is erased. -/
theorem test_scrub : next (exec .scrub { emptyPadded with err := 4 }) (fun t =>
    t == { State.reset with err := 4, rsps := [0] }) = true := by decide
/-- R183: one word and no other. -/
theorem test_wracc : next (exec (.wracc 3 0xFFFFFFFF) fresh) (fun t =>
    t.acc == #v[0x67452301, 0xEFCDAB89, 0x98BADCFE, 0xFFFFFFFF]) = true := by decide
/-- Program P4, command 2, and R184: bits 2:0 are kept as written. -/
theorem test_wrcnt : next (exec (.wrcnt 0 0xFFFFFFFF) fresh) (fun t => t.cnt == #v[0xFFFFFFFF, 0]) = true := by decide

/-! ### Steps, reset and the host's interface -/

/-- One step runs the word presented; a reset clears ERR and keeps the response log. -/
theorem test_step : next (step (State.reset.withFetchWord 48 0x010000000000)) (fun t =>
    t.phase == .active && t.input == []) = true ∧
    next (step { hashed with err := 3, input := [.reset], rsps := [5] }) (fun t =>
      t == { State.reset with rsps := [5] }) = true := by decide
/-- R237: bounds before state, illegal before bounds. -/
theorem test_priority : next (perform 0x034000000000 State.reset) (fun t => t.err == 3) = true ∧
    next (perform 0x034000000100 State.reset) (fun t => t.err == 1) = true := by decide
/-- ERR keeps the first code (R29). -/
theorem test_err_sticky : next (perform 0 { State.reset with err := 4 }) (fun t =>
    t.err == 4 && t.rsps == [0x0100000000]) = true := by decide

/-! ### The host's side -/

/-- Section V9: HEX in both cases (R214). -/
theorem test_hex : hexChars true [0x31, 0xD6, 0xCF] = ['3', '1', 'D', '6', 'C', 'F'] ∧
    hexChars false [0x31, 0xD6, 0xCF] = ['3', '1', 'd', '6', 'c', 'f'] := by decide
/-- The commands of FINALIZE for one buffered byte: RDCNT twice, UPDATE of 55 bytes and of 8, RDDG sixteen times, and
SCRUB where the host issues it (R210, 93_implementation_defined.md U1). -/
theorem test_finalizeCommands : (finalizeCommands true 1 8 0).length = 2 + (2 + 55) + (2 + 8 + 1) + 16 + 1 ∧
    (finalizeCommands false 1 8 0).length = 2 + (2 + 55) + (2 + 8 + 1) + 16 ∧
    (finalizeCommands true 1 8 0).getLast? = some .scrub := by decide
/-- The footer bytes of H9 (section V9) and the padding lengths of H3 and H4. -/
theorem test_footer : footer 0x3B8 0 = [0xB8, 0x03, 0, 0, 0, 0, 0, 0] ∧ padLength 55 = 1 ∧ padLength 56 = 64 := by decide
/-- A line of a listing (R80). -/
theorem test_listing : listing (.ldb 5 0x61) = "LDB 5, 97" := by decide
/-- Vectors F4 and O6, bit for bit. -/
theorem test_roundFunctions : roundF 0xFFFFFFFF 0x12345678 0x9ABCDEF0 = 0x12345678 ∧
    roundG 0xFFFFFFFF 0x12345678 0x9ABCDEF0 = 0x9ABCDEF8 ∧ roundH 0xFFFFFFFF 0x12345678 0x9ABCDEF0 = 0x77777777 ∧
    rol 0x12345678 7 = 0x1A2B3C09 := by decide
/-- Vector T1, step 0 and step 1: only the target changes. -/
theorem test_transformStep :
    transformStep (messageWords (blockOfBytes [0x80])) iv 0 = #v[0x000003F8, 0xEFCDAB89, 0x98BADCFE, 0x10325476] ∧
    transformStep (messageWords (blockOfBytes [0x80])) #v[0x000003F8, 0xEFCDAB89, 0x98BADCFE, 0x10325476] 1 =
      #v[0x000003F8, 0xEFCDAB89, 0x98BADCFE, 0x769A0254] := by decide
/-- Vector H1: the digest of the empty message as a function. -/
theorem test_md4Digest : md4Digest [] =
    [0x31, 0xD6, 0xCF, 0xE0, 0xD1, 0x6A, 0xE9, 0x31, 0xB7, 0x3C, 0x59, 0xD7, 0xE0, 0xC0, 0x89, 0xC0] := by
  set_option maxRecDepth 20000 in decide

/-! ### Witnesses: a state and operands that meet the hypotheses of each clause of a statement, at its boundaries -/

theorem fresh_prefixFilled : fresh.PrefixFilled := by unfold State.PrefixFilled; decide
theorem emptyPadded_maskMatchesBlock : emptyPadded.MaskMatchesBlock := by
  unfold State.MaskMatchesBlock
  decide
/-- INDEX 63, 63 bytes valid: one byte more completes the block. -/
def almostFull : State := activeWith #v[0x1F8, 0] [] 0x7FFFFFFFFFFFFFFF
theorem almostFull_prefixFilled : almostFull.PrefixFilled := by unfold State.PrefixFilled; decide

theorem witness_EncodeThenDecodeGivesTheCommandBack :
    (Instr.ldb 63 0xFF).wellFormed = true ∧ (Instr.ldb 64 0xFF).wellFormed = false := by decide
theorem witness_DecodedWordIsTheEncodingOfItsCommand :
    decode 0x0C01FFFFFFFF = .command (.wrcnt 1 0xFFFFFFFF) := by decide
theorem witness_IllegalExactlyOnUndefinedOpcodeOrReservedBit :
    decode (cmdWord 0 0 0) = .illegal ∧ decode (cmdWord 13 0 0) = .illegal ∧ decode (cmdWord 0x01 0 1) = .illegal ∧
    decode (cmdWord 0x0A 1 0) = .illegal ∧ decode (cmdWord 0x02 1 0) = .illegal ∧ decode (cmdWord 0x06 0 1) = .illegal ∧
    decode (cmdWord 0x03 0 0x100) = .illegal ∧ decode (cmdWord 0x03 0 0xFF) ≠ .illegal ∧
    decode (cmdWord 12 0 0) ≠ .illegal := by decide
theorem witness_NoTwoRowsMatchOneWord : (opRow .wrcnt).selects 0x0C01FFFFFFFF = true := by decide
theorem witness_OutOfBoundsExactlyAtTheIndexLimits :
    decode (cmdWord 0x03 64 0) = .outOfBounds ∧ decode (cmdWord 0x03 63 0) ≠ .outOfBounds ∧
    decode (cmdWord 0x04 16 0) = .outOfBounds ∧ decode (cmdWord 0x04 15 0) ≠ .outOfBounds ∧
    decode (cmdWord 0x06 4 0) = .outOfBounds ∧ decode (cmdWord 0x07 16 0) = .outOfBounds ∧
    decode (cmdWord 0x08 2 0) = .outOfBounds ∧ decode (cmdWord 0x0B 4 0) = .outOfBounds ∧
    decode (cmdWord 0x0C 2 0) = .outOfBounds ∧ decode (cmdWord 0x0C 1 0) ≠ .outOfBounds := by decide
theorem witness_StepRunsTheDecodedCommand :
    (State.reset.withInput [.cmd 0x010000000000, .reset]).input = .cmd 0x010000000000 :: [.reset] ∧
    decode 0x010000000000 = .command .init ∧ decode 0 = .illegal ∧ decode 0x034000000000 = .outOfBounds := by decide
theorem witness_StepWithNothingPresentedChangesNothing : hashed.input = [] := by decide
theorem witness_ResetEventRestoresEveryRegister : (hashed.withInput [.reset]).input = .reset :: [] := by decide
theorem witness_EveryCommandGetsExactlyOneResponse :
    (hashed.withInput [.cmd 0]).input = .cmd 0 :: [] := by decide
theorem witness_ErrorsAreReportedInTheirPriority :
    decode 0x050100000000 = .illegal ∧ decode 0x034000000000 = .outOfBounds ∧
    decode 0x050000000000 = .command .xform ∧ Instr.xform ∉ [Instr.init, .scrub, .rdstat] ∧ State.reset.phase = .idle ∧
    almostFull.phase = .active ∧ almostFull.blkv ≠ BitVec.allOnes 64 ∧
    emptyPadded.phase = .active ∧ emptyPadded.blkv = BitVec.allOnes 64 ∧
    decode 0x090000000000 = .command .rdstat ∧ Instr.rdstat ∈ [Instr.init, .scrub, .rdstat] := by decide
theorem witness_ErrLatchesTheCodeOfTheFirstRejection :
    next (perform 0 State.reset) (fun t => t.err == 1) = true ∧
    next (perform 0 { State.reset with err := 4 }) (fun t => t.err == 4) = true := by decide
theorem witness_RecordedErrorStaysUntilReset :
    ({ State.reset with err := 4, input := [.cmd 0] } : State).err ≠ 0 ∧
    Input.reset ∉ ({ State.reset with err := 4, input := [.cmd 0] } : State).input ∧
    next (Host.Core.run Sys2Proof.core 1 { State.reset with err := 4, input := [.cmd 0] }) (fun _ => true) = true := by
  decide
theorem witness_ErrTellsWhetherEveryResponseWasOk : State.reset.err = 0 ∧
    next (performAll [0x010000000000, 0x050000000000] State.reset) (fun t => t.err == 4) = true ∧
    next (performAll [0x010000000000, 0x090000000000] State.reset) (fun t => t.err == 0) = true := by decide
theorem witness_StepKeepsBlockMaskInAgreement : emptyPadded.MaskMatchesBlock ∧
    ∃ t, step emptyPadded = .next t := ⟨emptyPadded_maskMatchesBlock, _, rfl⟩
theorem witness_StepKeepsIdleStateErased : State.reset.IdleErased ∧ State.reset.phase = .idle ∧
    ∃ t, step State.reset = .next t := ⟨fun _ => ⟨rfl, rfl, rfl⟩, rfl, _, rfl⟩
theorem witness_StepKeepsErrAmongItsCodes : ({ hashed with err := 4 } : State).ErrLegal ∧
    ∃ t, step { hashed with err := 4 } = .next t := ⟨by unfold State.ErrLegal; decide, _, rfl⟩
theorem witness_TransformReadsOnlyBytesThatHoldValues :
    emptyPadded.MaskMatchesBlock ∧ emptyPadded.blkv = BitVec.allOnes 64 := ⟨emptyPadded_maskMatchesBlock, by decide⟩
theorem witness_PhaseFollowsTheTransitionTable :
    (Instr.rdacc 3).wellFormed = true ∧ Instr.rdacc 3 ∉ [Instr.init, .scrub, .rdstat] ∧ State.reset.phase = .idle ∧
    (Instr.xform).wellFormed = true ∧ emptyPadded.blkv = BitVec.allOnes 64 ∧ emptyPadded.phase = .active ∧
    Instr.scrub ∈ [Instr.init, .scrub, .rdstat] ∧ (Instr.scrub = .xform → State.reset.blkv = BitVec.allOnes 64) := by
  decide
theorem witness_WritesFollowTheAccessMatrix :
    next (exec (.wracc 0 5) hashed) (fun t => decide (t.acc ≠ hashed.acc)) = true ∧
    next (exec (.count 1) hashed) (fun t => decide (t.cnt ≠ hashed.cnt)) = true ∧
    next (exec (.ldb 0 5) hashed) (fun t => decide (t.blk ≠ hashed.blk ∧ t.blkv ≠ hashed.blkv)) = true ∧
    next (exec .scrub hashed) (fun t => decide (t.phase ≠ hashed.phase)) = true ∧
    next (exec .xform hashed) (fun t => decide (t.err ≠ hashed.err)) = true := by decide
theorem witness_OnlyXformReadsTheBlock : Instr.ldb 63 0 ≠ .xform ∧
    ∃ t, exec (.ldb 63 0) emptyPadded = .next t := ⟨by decide, _, rfl⟩
theorem witness_CommandsIgnoreTheRegistersTheyDoNotAccess :
    (∃ t, exec (.count 1) hashed = .next t) ∧ (∃ t, exec (.ldb 63 0) hashed = .next t) ∧
    (∃ t, exec (.ldw 15 0) hashed = .next t) ∧ (∃ t, exec (.rdcnt 1) hashed = .next t) ∧
    (∃ t, exec (.wrcnt 1 0) hashed = .next t) ∧ (∃ t, exec .rdstat hashed = .next t) ∧
    (∃ t, exec .xform emptyPadded = .next t) :=
  ⟨⟨_, rfl⟩, ⟨_, rfl⟩, ⟨_, rfl⟩, ⟨_, rfl⟩, ⟨_, rfl⟩, ⟨_, rfl⟩, ⟨_, rfl⟩⟩
theorem witness_InitStartsAFreshDigest : ((1 : BitVec 8) ≠ 0 ∨ (0 : Word) ≠ 0) ∧
    next (exec .init emptyPadded) (fun t => next (exec .init t) fun u => u.acc == t.acc) = true := by decide
theorem witness_ScrubErasesAndGoesIdle : ((0 : BitVec 8) ≠ 0 ∨ (0x80000000 : Word) ≠ 0) ∧
    (State.reset.phase = .idle ∧ State.reset.IdleErased ∧ State.reset.MaskMatchesBlock) ∧
    (∃ t, exec .scrub emptyPadded = .next t) ∧ (15 : BitVec 8).toNat < 16 :=
  ⟨by decide, ⟨rfl, fun _ => ⟨rfl, rfl, rfl⟩, by unfold State.MaskMatchesBlock; decide⟩, ⟨_, rfl⟩, by decide⟩
theorem witness_StatusWordShowsTheStateFields : ((0 : BitVec 8) ≠ 0 ∨ (1 : Word) ≠ 0) ∧
    emptyPadded.blkv = 0xFFFFFFFFFFFFFFFF ∧ State.reset.phase = .idle ∧ State.reset.IdleErased :=
  ⟨by decide, by decide, rfl, fun _ => ⟨rfl, rfl, rfl⟩⟩
theorem witness_FillCountsTheValidBytes : fresh.PrefixFilled ∧ almostFull.PrefixFilled ∧ almostFull.fill = 63 :=
  ⟨fresh_prefixFilled, almostFull_prefixFilled, by decide⟩
theorem witness_CountAddsTheLengthByWordsAndCarry : (0x80 : BitVec 8) ≠ 0 ∧ State.reset.phase = .idle ∧
    fresh.phase = .active ∧ (activeWith #v[0xFFFFFFF8, 0] [] 0).phase = .active ∧
    (activeWith #v[0xFFFFFFF8, 0] [] 0).cnt = #v[0xFFFFFFF8, 0] := by decide
theorem witness_CountIsASixtyFourBitAddition : (activeWith #v[0xFFFFFFF8, 0xFFFFFFFF] [] 0).phase = .active := by decide
theorem witness_CountMovesTheIndexByTheLength : (activeWith #v[7, 0] [] 0).phase = .active := by decide
theorem witness_CountZeroChangesNothing : hashed.phase = .active ∧ State.reset.phase = .idle := by decide
theorem witness_LoadByteWritesOneBlockByte : (63 : BitVec 8).toNat < 64 ∧ 64 ≤ (64 : BitVec 8).toNat ∧
    (0x00000100 : Word).extractLsb' 8 24 ≠ 0 ∧ State.reset.phase = .idle ∧ fresh.phase = .active ∧ fresh.blkv = 0 := by
  decide
theorem witness_LoadWordWritesFourBlockBytes : (15 : BitVec 8).toNat < 16 ∧ 16 ≤ (16 : BitVec 8).toNat ∧
    State.reset.phase = .idle ∧ fresh.phase = .active := by decide
theorem witness_LoadsPlaceTheMessageWords : almostFull.phase = .active := by decide
theorem witness_MessageWordsAreLittleEndian : (blockOfBytes [0x61, 0x62, 0x63, 0x80])[0] = 0x61 ∧
    (blockOfBytes [0x61, 0x62, 0x63, 0x80])[1] = 0x62 ∧ (blockOfBytes [0x61, 0x62, 0x63, 0x80])[2] = 0x63 ∧
    (blockOfBytes [0x61, 0x62, 0x63, 0x80])[3] = 0x80 := by decide
theorem witness_XformTransformsAndConsumesTheBlock : ((0x80 : BitVec 8) ≠ 0 ∨ (0 : Word) ≠ 0) ∧
    State.reset.phase = .idle ∧ (almostFull.phase = .active ∧ almostFull.blkv ≠ BitVec.allOnes 64) ∧
    emptyPadded.phase = .active ∧ emptyPadded.blkv = BitVec.allOnes 64 := by decide
theorem witness_ReadAccumulatorAnswersTheWord : (3 : BitVec 8).toNat < 4 ∧ 4 ≤ (4 : BitVec 8).toNat ∧
    (1 : Word) ≠ 0 ∧ State.reset.phase = .idle ∧ hashed.phase = .active := by decide
theorem witness_ReadDigestAnswersTheByte : (15 : BitVec 8).toNat < 16 ∧ 16 ≤ (16 : BitVec 8).toNat ∧
    (1 : Word) ≠ 0 ∧ State.reset.phase = .idle ∧ hashed.phase = .active ∧ hashed.acc[0] = 0xE0CFD631 := by decide
theorem witness_ReadCounterAnswersTheWord : (1 : BitVec 8).toNat < 2 ∧ 2 ≤ (2 : BitVec 8).toNat ∧
    (1 : Word) ≠ 0 ∧ State.reset.phase = .idle ∧ hashed.phase = .active := by decide
theorem witness_DigestBytesSpellTheAccumulator : hashed.phase = .active := by decide
theorem witness_WriteAccumulatorWritesTheWord : (3 : BitVec 8).toNat < 4 ∧ 4 ≤ (4 : BitVec 8).toNat ∧
    State.reset.phase = .idle ∧ hashed.phase = .active := by decide
theorem witness_WriteCounterWritesTheWord : (1 : BitVec 8).toNat < 2 ∧ 2 ≤ (2 : BitVec 8).toNat ∧
    State.reset.phase = .idle ∧ hashed.phase = .active := by decide
theorem witness_ContextWritesRestoreASavedState : fresh.phase = .active := by decide
theorem witness_UpdateEndsInTheStatedState : [(0x61 : Byte)].length < 2 ^ 32 ∧ almostFull.phase = .active ∧
    almostFull.PrefixFilled := ⟨by decide, by decide, almostFull_prefixFilled⟩
theorem witness_UpdateIsChunkInvariant : [[(0x61 : Byte)], [], [0x62, 0x63]].flatten.length < 2 ^ 32 ∧
    almostFull.phase = .active ∧ almostFull.PrefixFilled := ⟨by decide, by decide, almostFull_prefixFilled⟩
theorem witness_EmptyUpdateChangesNothing : 63 < 64 ∧ almostFull.phase = .active := by decide
theorem witness_PaddingFillsToFiftySix : 55 < 64 ∧ 55 ≤ 55 ∧ 63 < 64 ∧ 56 ≤ 63 := by decide
theorem witness_FooterIsTheCounterLittleEndian : 7 < 8 := by decide
theorem witness_TransformStepWritesOnlyItsTarget : 1 ≤ 1 ∧ 1 ≤ 31 ∧ 31 ≤ 31 ∧ 1 ≤ 31 := by decide
theorem witness_FinalizeIssuesOneOrTwoTransforms :
    (fresh.phase = .active ∧ fresh.PrefixFilled ∧ fresh.index.toNat < 56) ∧
    (almostFull.phase = .active ∧ almostFull.PrefixFilled ∧ ¬ almostFull.index.toNat < 56) ∧ 55 < 64 ∧ 63 < 64 :=
  ⟨⟨rfl, fresh_prefixFilled, by decide⟩, ⟨rfl, almostFull_prefixFilled, by decide⟩, by decide, by decide⟩
theorem witness_HashComputesTheMessageDigest : [(0x61 : Byte)].length < 2 ^ 32 ∧ true = true ∧ false = false := by
  decide
theorem witness_HashOfPiecesComputesTheMessageDigest :
    (∀ p ∈ [[(0x61 : Byte)], [], [0x62, 0x63]], p.length < 2 ^ 32) ∧ State.reset.err = 0 := by decide
theorem witness_UpdateAfterFinalizeIsRejected : State.reset.phase = .idle := by decide

end Sys2Proof.Tests
end

namespace Sys2Proof.Machine

/-- Settles O8: this is the law of a step on a state whose list of inputs is empty (log entry 1). -/
theorem stepWithNothingPresentedChangesNothing : Obligations.StepWithNothingPresentedChangesNothing :=
  fun _ hnone => step_nil hnone

end Sys2Proof.Machine

namespace Sys2Proof.Machine

/-! ### The two outcomes of a command, with the guard of the second, and what every step keeps -/

/-- A run of two parts answers a next state only through a next state of the first part. -/
theorem andThen_eq_next {α : Type} {o : Host.Outcome State Fault Refusal} {f : State → Host.Outcome α Fault Refusal}
    {t : α} (h : andThen o f = .next t) : ∃ u, o = .next u ∧ f u = .next t := by
  cases o with
  | next u => exact ⟨u, rfl, h⟩
  | fault r => cases h
  | refused r => cases h

theorem anyPhase_iff {i : Instr} : anyPhase i = true ↔ i = .init ∨ i = .scrub ∨ i = .rdstat := by
  cases i <;> simp [anyPhase]

/-- Two states with the same phase, and for XFORM the same FULL, are treated alike: the command is rejected in both with
the same error, or performed in both. -/
theorem exec_congr (i : Instr) {s s' : State} (hphase : s'.phase = s.phase)
    (hfull : i = .xform → s'.full = s.full) :
    (∃ e, exec i s = s.reject e ∧ exec i s' = s'.reject e) ∨
    ((s.phase = .active ∨ anyPhase i = true) ∧
      exec i s = .next ((effect i s).respond (answerData i s)) ∧
      exec i s' = .next ((effect i s').respond (answerData i s'))) := by
  rcases exec_cases i s with ⟨hw, he⟩ | ⟨hw, ha, hp, he⟩ | ⟨rfl, hp, hf, he⟩ | ⟨hw, hp | ha, hx, he⟩
  · exact .inl ⟨_, he, exec_outOfBounds hw s'⟩
  · exact .inl ⟨_, he, exec_idle hw ha (hphase.trans hp)⟩
  · exact .inl ⟨_, he, exec_xform_incomplete (hphase.trans hp) ((hfull rfl).trans hf)⟩
  · exact .inr ⟨.inl hp, he, exec_active hw (hphase.trans hp) fun h => (hfull h).trans (hx h)⟩
  · exact .inr ⟨.inr ha, he, exec_anyPhase ha s'⟩

/-- The state that a command word leaves: of a rejection, or of a command that its phase allows. -/
theorem perform_eq_next {w : CmdWord} {s t : State} (h : perform w s = .next t) :
    (∃ e, t = (s.latch e).answer e.status 0) ∨
    ∃ i, (s.phase = .active ∨ anyPhase i = true) ∧ t = (effect i s).respond (answerData i s) := by
  cases hd : decode w with
  | illegal =>
    cases (perform_illegal hd s).symm.trans h
    exact .inl ⟨_, rfl⟩
  | outOfBounds =>
    cases (perform_outOfBounds hd s).symm.trans h
    exact .inl ⟨_, rfl⟩
  | command i =>
    have hexec := (perform_command hd s).symm.trans h
    rcases exec_congr i (s := s) rfl fun _ => rfl with ⟨e, he, _⟩ | ⟨hguard, he, _⟩
    · cases he.symm.trans hexec
      exact .inl ⟨e, rfl⟩
    · cases he.symm.trans hexec
      exact .inr ⟨i, hguard, rfl⟩

/-- A property that a rejection, a performed command, a reset and the input port leave true holds after every step. -/
theorem step_invariant {P : State → Prop} (hport : ∀ s es, P s → P (s.withInput es))
    (hreset : ∀ s, P s → P s.resetEvent) (hreject : ∀ s e, P s → P ((s.latch e).answer e.status 0))
    (hperform : ∀ i s, (s.phase = .active ∨ anyPhase i = true) → P s → P ((effect i s).respond (answerData i s)))
    {s t : State} (hs : P s) (h : step s = .next t) : P t := by
  rcases step_cases s with ⟨_, he⟩ | ⟨rest, _, he⟩ | ⟨w, rest, _, he⟩
  · cases he.symm.trans h
    exact hs
  · cases he.symm.trans h
    exact hreset _ (hport s rest hs)
  · rcases perform_eq_next (he.symm.trans h) with ⟨e, rfl⟩ | ⟨i, hg, rfl⟩
    · exact hreject _ e (hport s rest hs)
    · exact hperform i _ hg (hport s rest hs)

/-! ### BLKV and the block buffer agree (10_state.md R26) -/

theorem State.maskMatchesBlock_of_empty {s : State} (hblk : s.blk = []) (hblkv : s.blkv = 0) :
    s.MaskMatchesBlock := by
  refine ⟨by rw [hblk]; rfl, fun i => ?_⟩
  rw [hblk, hblkv]
  exact BitVec.getLsbD_zero

theorem State.MaskMatchesBlock.storeByte {s : State} (h : s.MaskMatchesBlock) (i : Fin 64) (b : Byte) :
    (s.storeByte i b).MaskMatchesBlock := by
  obtain ⟨hwf, hmask⟩ := h
  refine ⟨State.storeByte_wf s i b hwf, fun k => ?_⟩
  rw [State.storeByte_blkv_bit s i b k.val k.isLt, State.storeByte_lookup, hmask k]
  by_cases hk : k.val = i.val <;> simp [hk]

theorem State.MaskMatchesBlock.storeWord {s : State} (h : s.MaskMatchesBlock) (j : Fin 16) (v : Word) :
    (s.storeWord j v).MaskMatchesBlock := by
  rw [State.storeWord_eq]
  exact (((h.storeByte _ _).storeByte _ _).storeByte _ _).storeByte _ _

/-- A performed command loads the block, empties it, or leaves it alone. -/
theorem State.MaskMatchesBlock.effect {s : State} (h : s.MaskMatchesBlock) (i : Instr) :
    (effect i s).MaskMatchesBlock := by
  cases i with
  | init | xform | scrub => exact State.maskMatchesBlock_of_empty rfl rfl
  | ldb pos byte =>
    simp only [Machine.effect]
    split
    · exact h
    · exact h.storeByte _ _
  | ldw wordIndex word =>
    simp only [Machine.effect]
    split
    · exact h
    · exact h.storeWord _ _
  | count | rdacc | rddg | rdcnt | rdstat => exact h
  | wracc k word | wrcnt k word =>
    simp only [Machine.effect]
    split <;> exact h

/-- A block in agreement with the mask 0 lists no byte: the canonical form of the empty block is the empty list. -/
theorem State.MaskMatchesBlock.blk_eq_nil {s : State} (h : s.MaskMatchesBlock) (hzero : s.blkv = 0) : s.blk = [] := by
  obtain ⟨hwf, hmask⟩ := h
  refine Memory.ext_of_wf hwf Memory.wf_nil fun k => ?_
  rcases Nat.lt_or_ge k 64 with hk | hk
  · have hbit := hmask ⟨k, hk⟩
    rw [hzero] at hbit
    exact Option.not_isSome_iff_eq_none.mp (by simp [← hbit])
  · exact Memory.lookup_outside s.blk hwf hk

/-- Settles O18: `step_invariant` with what loads and clears do to the mask and the block. -/
theorem stepKeepsBlockMaskInAgreement : Obligations.StepKeepsBlockMaskInAgreement := by
  unfold Obligations.StepKeepsBlockMaskInAgreement
  intro s t hs h
  exact step_invariant (P := State.MaskMatchesBlock) (fun _ _ hp => hp)
    (fun _ _ => State.maskMatchesBlock_of_empty rfl rfl) (fun _ _ hp => hp) (fun i _ _ hp => hp.effect i) hs h

/-! ### The IDLE state is erased (10_state.md R38) -/

/-- In IDLE only INIT, RDSTAT and SCRUB are performed: the first leaves IDLE, the second changes nothing and the third
erases; in ACTIVE only SCRUB goes to IDLE. -/
theorem State.IdleErased.effect {s : State} (h : s.IdleErased) {i : Instr}
    (hguard : s.phase = .active ∨ anyPhase i = true) : (effect i s).IdleErased := by
  intro hidle
  rw [effect_phase] at hidle
  split_ifs at hidle with hinit hscrub
  · subst hscrub
    exact ⟨rfl, rfl, rfl⟩
  · have hany : anyPhase i = true := hguard.resolve_left (by simp [hidle])
    rcases anyPhase_iff.mp hany with rfl | rfl | rfl
    · exact absurd rfl hinit
    · exact absurd rfl hscrub
    · exact h hidle

/-- Settles O19: `step_invariant` with the phase of the state that a performed command leaves. -/
theorem stepKeepsIdleStateErased : Obligations.StepKeepsIdleStateErased := by
  unfold Obligations.StepKeepsIdleStateErased
  intro s t hs h
  exact step_invariant (P := State.IdleErased) (fun _ _ hp => hp) (fun _ _ _ => ⟨rfl, rfl, rfl⟩)
    (fun _ _ hp => hp) (fun _ _ hguard hp => hp.effect hguard) hs h

/-! ### ERR records the first rejection (10_state.md R29) -/

theorem ErrCode.setWidth_status (e : ErrCode) : e.status.setWidth 4 = e.code := by cases e <;> rfl

/-- After a rejection ERR holds a code. -/
theorem State.latch_err_ne_zero (s : State) (e : ErrCode) : (s.latch e).err ≠ 0 := by
  rw [State.latch_err]
  split
  · exact e.code_ne_zero
  · assumption

/-- A command word is answered by one response, and leaves ERR at 0 exactly when ERR was 0 and that response is OK. -/
theorem perform_response {w : CmdWord} {s t : State} (h : perform w s = .next t) :
    ∃ r, t.rsps = r :: s.rsps ∧ (t.err = if s.err = 0 then (rspStatus r).setWidth 4 else s.err) ∧
      (t.err = 0 ↔ s.err = 0 ∧ rspStatus r = 0) := by
  rcases perform_eq_next h with ⟨e, rfl⟩ | ⟨i, _, rfl⟩
  · refine ⟨rspWord e.status 0, rfl, ?_, iff_of_false (s.latch_err_ne_zero e) ?_⟩
    · simp [ErrCode.setWidth_status]
    · rw [rspStatus_rspWord]
      exact fun hok => e.status_ne_zero hok.2
  · refine ⟨rspWord 0 (answerData i s), by simp, ?_, by simp⟩
    by_cases h0 : s.err = 0 <;> simp [h0]

theorem perform_input {w : CmdWord} {s t : State} (h : perform w s = .next t) : t.input = s.input := by
  rcases perform_eq_next h with ⟨e, rfl⟩ | ⟨i, _, rfl⟩ <;> simp

/-- Settles O15: the response of a rejection carries the code that ERR latches, that of a performed command is OK. -/
theorem errLatchesTheCodeOfTheFirstRejection : Obligations.ErrLatchesTheCodeOfTheFirstRejection := by
  unfold Obligations.ErrLatchesTheCodeOfTheFirstRejection
  intro w s t h
  obtain ⟨r, hrsps, herr, _⟩ := perform_response h
  exact ⟨r, hrsps, herr⟩

/-- One step keeps a recorded error while no reset is presented, and presents nothing new. -/
theorem step_err_of_recorded {s t : State} (herr : s.err ≠ 0) (hno : Input.reset ∉ s.input)
    (h : step s = .next t) : t.err = s.err ∧ Input.reset ∉ t.input := by
  rcases step_cases s with ⟨_, he⟩ | ⟨rest, hin, _⟩ | ⟨w, rest, hin, he⟩
  · cases he.symm.trans h
    exact ⟨rfl, hno⟩
  · exact absurd (hin ▸ List.mem_cons_self) hno
  · have hw := he.symm.trans h
    obtain ⟨r, _, ht, _⟩ := perform_response hw
    refine ⟨ht.trans (if_neg herr), ?_⟩
    rw [perform_input hw]
    exact fun hmem => hno (hin ▸ List.mem_cons_of_mem _ hmem)

/-- Settles O16, by induction on the number of steps. -/
theorem recordedErrorStaysUntilReset : Obligations.RecordedErrorStaysUntilReset := by
  unfold Obligations.RecordedErrorStaysUntilReset
  intro k
  induction k with
  | zero =>
    intro s t _ _ h
    cases h
    rfl
  | succ k ih =>
    intro s t herr hno h
    rw [run_succ] at h
    obtain ⟨u, hstep, hrun⟩ := andThen_eq_next h
    obtain ⟨hu, hno'⟩ := step_err_of_recorded herr hno hstep
    exact (ih u t (hu ▸ herr) hno' hrun).trans hu

/-- Over a list of words, from any ERR: one response for each word, and ERR is 0 at the end exactly when it was 0 at the
start and every response is OK. -/
theorem performAll_responses (ws : List CmdWord) {s t : State} (h : performAll ws s = .next t) :
    ∃ given : List RspWord, t.rsps = given ++ s.rsps ∧ given.length = ws.length ∧
      (t.err = 0 ↔ s.err = 0 ∧ ∀ r ∈ given, rspStatus r = 0) := by
  induction ws generalizing s with
  | nil =>
    cases h
    exact ⟨[], rfl, rfl, by simp⟩
  | cons w ws ih =>
    obtain ⟨u, hw, hws⟩ := andThen_eq_next h
    obtain ⟨r, hr, _, hu⟩ := perform_response hw
    obtain ⟨given, hgiven, hlength, ht⟩ := ih hws
    refine ⟨given ++ [r], by simp [hgiven, hr], by simp [hlength], ?_⟩
    simp only [ht, hu, List.forall_mem_append, List.forall_mem_singleton]
    tauto

/-- Settles O17, by induction on the list of words. -/
theorem errTellsWhetherEveryResponseWasOk : Obligations.ErrTellsWhetherEveryResponseWasOk := by
  unfold Obligations.ErrTellsWhetherEveryResponseWasOk
  intro ws s t herr h
  obtain ⟨given, hgiven, hlength, ht⟩ := performAll_responses ws h
  exact ⟨given, hgiven, hlength, by simpa [herr] using ht⟩

theorem State.ErrLegal.latch {s : State} (h : s.ErrLegal) (e : ErrCode) : (s.latch e).ErrLegal := by
  unfold State.ErrLegal
  rw [State.latch_err]
  split
  · exact e.code_le
  · exact h

/-- Settles O20: a rejection writes a code or nothing, a reset writes 0, and a performed command leaves ERR. -/
theorem stepKeepsErrAmongItsCodes : Obligations.StepKeepsErrAmongItsCodes := by
  unfold Obligations.StepKeepsErrAmongItsCodes
  intro s t hs h
  refine step_invariant (P := State.ErrLegal) (fun _ _ hp => hp) (fun _ _ => Nat.zero_le _)
    (fun _ e hp => hp.latch e) (fun i u _ hp => ?_) hs h
  unfold State.ErrLegal
  rwa [State.respond_err, effect_err]

/-! ### The reset state and the reset event (10_state.md R37, 70_reset_and_hazards.md R260) -/

/-- Settles O9: a reset event is `State.resetEvent` on the state without that event. -/
theorem resetEventRestoresEveryRegister : Obligations.ResetEventRestoresEveryRegister :=
  fun _ _ hreset => step_reset hreset

/-- Settles O10, register by register. -/
theorem resetStateIsZeroAndIdle : Obligations.ResetStateIsZeroAndIdle := by
  unfold Obligations.ResetStateIsZeroAndIdle
  exact ⟨rfl, rfl, rfl, fun _ => rfl, rfl, rfl, by decide⟩

/-- Settles O21: the empty block agrees with the mask 0, the IDLE state is zero, and ERR is 0. -/
theorem resetMeetsTheInvariants : Obligations.ResetMeetsTheInvariants :=
  ⟨State.maskMatchesBlock_of_empty rfl rfl, fun _ => ⟨rfl, rfl, rfl⟩, Nat.zero_le _⟩

/-! ### SCRUB (40_lifecycle.md R101) -/

/-- The opcode of a row with a reserved bit set decodes to nothing (30_encoding.md R76). -/
theorem decode_reserved_set {m : Mnemonic} {idx : BitVec 8} {data : Word} (h : ¬ reservedZero m idx data) :
    decode (cmdWord (opcodeOf m) idx data) = .illegal :=
  decode_illegal _ _ _ fun _ hop => opcodeOf_inj hop ▸ h

/-- A command that needs ACTIVE is rejected with ErrState in IDLE, as `RejectedWith` says it. -/
theorem exec_idle_rejectedWith {i : Instr} (hw : i.wellFormed = true) (ha : anyPhase i = false) {s : State}
    (hidle : s.phase = .idle) : RejectedWith .state s (exec i s) :=
  (exec_idle hw ha hidle).trans (reject_rejectedWith .state s)

/-- Erasing an erased IDLE state, its block in agreement with the mask, changes none of its core. -/
theorem State.IdleErased.sameCore_erase {s : State} (h : s.IdleErased) (hidle : s.phase = .idle)
    (hmask : s.MaskMatchesBlock) : SameCore s s.erase := by
  obtain ⟨hacc, hcnt, hblkv⟩ := h hidle
  exact ⟨hacc.symm, hcnt.symm, (hmask.blk_eq_nil hblkv).symm, hblkv.symm, hidle.symm, rfl⟩

/-- Settles O28: the effect is `State.erase` in every state, which leaves IDLE, where RDDG is rejected. -/
theorem scrubErasesAndGoesIdle : Obligations.ScrubErasesAndGoesIdle := by
  unfold Obligations.ScrubErasesAndGoesIdle
  refine ⟨decode_of_row .scrub 0 0 ⟨rfl, rfl⟩, fun idx data hset => ?_, fun s => rfl, fun s hidle herased hmask => ?_,
    fun s t k hscrub hk => ?_⟩
  · exact decode_reserved_set (m := .scrub) fun ⟨hidx, hdata⟩ => hset.elim (· hidx) (· hdata)
  · exact ⟨_, rfl, herased.sameCore_erase hidle hmask⟩
  · cases hscrub
    exact exec_idle_rejectedWith (by simpa [Instr.wellFormed] using hk) rfl rfl

/-! ### FILL, FULL and INDEX (10_state.md R24, R27, R39) -/

/-- Of the first `m` numbers, those below `n` are `min m n`. -/
theorem countP_range_lt (m n : Nat) : (List.range m).countP (fun i => decide (i < n)) = min m n := by
  induction m with
  | zero => simp
  | succ m ih =>
    rw [List.range_succ, List.countP_append, ih]
    by_cases h : m < n <;> simp [h] <;> omega

/-- A block filled to `i` has FILL `i`. -/
theorem State.FilledTo.fill_eq {s : State} {i : Nat} (h : s.FilledTo i) (hi : i ≤ 64) : s.fill = i := by
  have hbits : (List.range 64).countP (fun k => s.blkv.getLsbD k) =
      (List.range 64).countP (fun k => decide (k < i)) :=
    List.countP_congr fun k hk => by rw [h ⟨k, List.mem_range.mp hk⟩]
  exact hbits.trans ((countP_range_lt 64 i).trans (Nat.min_eq_right hi))

/-- FULL and FILL = 64 both say that the block is filled to 64. -/
theorem State.full_iff_fill (s : State) : s.full = true ↔ s.fill = 64 := by
  constructor
  · intro hfull
    have hall : s.FilledTo 64 := fun k => by rw [s.full_iff.mp hfull, BitVec.getLsbD_allOnes]
    exact hall.fill_eq le_rfl
  · intro hfill
    have hbits := List.countP_eq_length.mp (hfill.trans List.length_range.symm)
    exact State.FilledTo.full fun k => by
      rw [hbits k.val (List.mem_range.mpr k.isLt), decide_eq_true k.isLt]

/-- Settles O30: the third part is `FilledTo` at INDEX. -/
theorem fillCountsTheValidBytes : Obligations.FillCountsTheValidBytes := by
  unfold Obligations.FillCountsTheValidBytes
  refine ⟨fun s => ⟨s.fill_le, s.full_iff_fill⟩, fun s hprefix => ?_⟩
  exact State.FilledTo.fill_eq (i := s.index.toNat) hprefix (Nat.le_of_lt s.index.isLt)

/-- Settles O33: eight times the length is added to the low word, and INDEX is its bits 8 to 3. -/
theorem countMovesTheIndexByTheLength : Obligations.CountMovesTheIndexByTheLength := by
  unfold Obligations.CountMovesTheIndexByTheLength
  intro len s hactive
  have hlow := countLow_toNat s.cnt[0] len
  refine ⟨_, exec_count_active hactive len, ?_, ?_⟩
  · rw [State.index_toNat, State.index_toNat, State.respond_cnt, State.advance_low, hlow]
    omega
  · apply BitVec.eq_of_toNat_eq
    rw [State.respond_cnt, State.advance_low]
    simp only [BitVec.extractLsb'_toNat, Nat.shiftRight_zero, hlow]
    omega

/-! ### What a transform reads (10_state.md R25, 20_memory.md R58) -/

theorem State.blockBytes_getElem (s : State) (k : Fin 64) : s.blockBytes[k] = Memory.read s.blk k.val := by
  simp [State.blockBytes]

/-- Settles O22: a set bit says that its byte holds a value, and a read gives the value held. -/
theorem transformReadsOnlyBytesThatHoldValues : Obligations.TransformReadsOnlyBytesThatHoldValues := by
  unfold Obligations.TransformReadsOnlyBytesThatHoldValues
  intro s ⟨_, hmask⟩ hfull k
  have hheld : (Memory.lookup s.blk k.val).isSome = true := by
    rw [← hmask k, hfull, BitVec.getLsbD_allOnes]
    exact decide_eq_true k.isLt
  obtain ⟨b, hb⟩ := Option.isSome_iff_exists.mp hheld
  rw [s.blockBytes_getElem k, Memory.read_of_lookup hb, hb]

/-! ### The access matrix: what a performed command writes (10_state.md R32) -/

theorem effect_acc_changed {i : Instr} {s : State} (h : (effect i s).acc ≠ s.acc) :
    i = .init ∨ i = .xform ∨ i = .scrub ∨ ∃ k v, i = .wracc k v := by
  cases i with
  | init | xform | scrub | wracc => simp
  | count | rdacc | rddg | rdcnt | rdstat => exact absurd rfl h
  | ldb | ldw | wrcnt =>
    simp only [effect] at h
    split at h <;> exact absurd rfl h

theorem effect_cnt_changed {i : Instr} {s : State} (h : (effect i s).cnt ≠ s.cnt) :
    i = .init ∨ i = .scrub ∨ (∃ n, i = .count n) ∨ ∃ k v, i = .wrcnt k v := by
  cases i with
  | init | scrub | count | wrcnt => simp
  | xform | rdacc | rddg | rdcnt | rdstat => exact absurd rfl h
  | ldb | ldw | wracc =>
    simp only [effect] at h
    split at h <;> exact absurd rfl h

theorem effect_block_changed {i : Instr} {s : State} (h : (effect i s).blk ≠ s.blk ∨ (effect i s).blkv ≠ s.blkv) :
    i = .init ∨ i = .xform ∨ i = .scrub ∨ (∃ p b, i = .ldb p b) ∨ ∃ j v, i = .ldw j v := by
  cases i with
  | init | xform | scrub | ldb | ldw => simp
  | count | rdacc | rddg | rdcnt | rdstat => exact absurd h (by simp [effect])
  | wracc | wrcnt =>
    simp only [effect] at h
    split at h <;> exact absurd h (by simp)

theorem effect_phase_changed {i : Instr} {s : State} (h : (effect i s).phase ≠ s.phase) : i = .init ∨ i = .scrub := by
  rw [effect_phase] at h
  split_ifs at h with hinit hscrub
  · exact .inl hinit
  · exact .inr hscrub
  · exact absurd rfl h

/-- Only the first rejection changes ERR (10_state.md R29). -/
theorem State.latch_err_changed {s : State} {e : ErrCode} (h : (s.latch e).err ≠ s.err) : s.err = 0 := by
  by_contra hrecorded
  exact h (if_neg hrecorded)

/-- Settles O24: a rejection writes ERR alone, and only when it is 0; a performed command writes what its row says. -/
theorem writesFollowTheAccessMatrix : Obligations.WritesFollowTheAccessMatrix := by
  unfold Obligations.WritesFollowTheAccessMatrix
  intro i s t h
  rcases exec_next i s with ⟨e, he⟩ | he
  · cases he.symm.trans h
    exact ⟨absurd rfl, absurd rfl, (·.elim (absurd rfl) (absurd rfl)), absurd rfl,
      fun hne => ⟨State.latch_err_changed hne, rfl, rfl, rfl, rfl, rfl⟩, rfl⟩
  · cases he.symm.trans h
    exact ⟨effect_acc_changed, effect_cnt_changed, effect_block_changed, effect_phase_changed,
      fun hne => absurd (effect_err i s) hne, effect_input i s⟩

/-! ### The access matrix: what a performed command reads -/

/-- With other cells in the block, every command but XFORM makes the same change to everything else. -/
theorem effect_withBlk {i : Instr} (hi : i ≠ .xform) (s : State) (cells : List Host.Cell) :
    ∃ cells', effect i { s with blk := cells } = { effect i s with blk := cells' } := by
  cases i with
  | xform => exact absurd rfl hi
  | init | scrub | count | rdacc | rddg | rdcnt | rdstat => exact ⟨_, rfl⟩
  | ldb | ldw | wracc | wrcnt =>
    simp only [effect]
    split <;> exact ⟨_, rfl⟩

theorem answerData_withBlk (i : Instr) (s : State) (cells : List Host.Cell) :
    answerData i { s with blk := cells } = answerData i s := by cases i <;> rfl

/-- Settles O25: neither the guards, the effect nor the answer of another command read the cells. -/
theorem onlyXformReadsTheBlock : Obligations.OnlyXformReadsTheBlock := by
  unfold Obligations.OnlyXformReadsTheBlock
  intro i s t cells hi h
  rcases exec_congr i (s := s) (s' := { s with blk := cells }) rfl fun _ => rfl with ⟨e, he, he'⟩ | ⟨_, he, he'⟩
  · cases he.symm.trans h
    exact ⟨cells, he'⟩
  · cases he.symm.trans h
    obtain ⟨cells', heffect⟩ := effect_withBlk hi s cells
    rw [he', heffect, answerData_withBlk]
    exact ⟨cells', rfl⟩

/-- A change of the state that the guards do not see, and that a rejection and the performed command carry along, is
carried along by the command. -/
theorem exec_commutes {i : Instr} {s t : State} (f : State → State) (hphase : (f s).phase = s.phase)
    (hfull : i = .xform → (f s).full = s.full)
    (hreject : ∀ e, ((f s).latch e).answer e.status 0 = f ((s.latch e).answer e.status 0))
    (hperform : (effect i (f s)).respond (answerData i (f s)) = f ((effect i s).respond (answerData i s)))
    (h : exec i s = .next t) : exec i (f s) = .next (f t) := by
  rcases exec_congr i hphase hfull with ⟨e, he, he'⟩ | ⟨_, he, he'⟩
  · cases he.symm.trans h
    exact he'.trans (congrArg Host.Outcome.next (hreject e))
  · cases he.symm.trans h
    exact he'.trans (congrArg Host.Outcome.next hperform)

/-- The commands that R21 says neither read nor write ACC. -/
def IgnoresAcc (i : Instr) : Prop :=
  (∃ n, i = .count n) ∨ (∃ p b, i = .ldb p b) ∨ (∃ j v, i = .ldw j v) ∨ (∃ k, i = .rdcnt k) ∨
    (∃ k v, i = .wrcnt k v) ∨ i = .rdstat

/-- The commands that R23 says neither read nor write CNT. -/
def IgnoresCnt (i : Instr) : Prop :=
  i = .xform ∨ (∃ p b, i = .ldb p b) ∨ (∃ j v, i = .ldw j v)

/-- With another accumulator, a command that ignores ACC makes the same change, answers the same, and leaves it. -/
theorem performed_withAcc {i : Instr} (hi : IgnoresAcc i) (s : State) (a : Quad) :
    (effect i { s with acc := a }).respond (answerData i { s with acc := a }) =
      { (effect i s).respond (answerData i s) with acc := a } := by
  rcases hi with ⟨n, rfl⟩ | ⟨p, b, rfl⟩ | ⟨j, v, rfl⟩ | ⟨k, rfl⟩ | ⟨k, v, rfl⟩ | rfl
  · rfl
  · simp only [effect]
    split <;> rfl
  · simp only [effect]
    split <;> rfl
  · rfl
  · simp only [effect]
    split <;> rfl
  · rfl

/-- With another counter, a command that ignores CNT makes the same change, answers the same, and leaves it. -/
theorem performed_withCnt {i : Instr} (hi : IgnoresCnt i) (s : State) (c : Vector Word 2) :
    (effect i { s with cnt := c }).respond (answerData i { s with cnt := c }) =
      { (effect i s).respond (answerData i s) with cnt := c } := by
  rcases hi with rfl | ⟨p, b, rfl⟩ | ⟨j, v, rfl⟩
  · rfl
  · simp only [effect]
    split <;> rfl
  · simp only [effect]
    split <;> rfl

/-- Settles O26: the guards read neither ACC nor CNT, and the listed commands read and write neither. -/
theorem commandsIgnoreTheRegistersTheyDoNotAccess : Obligations.CommandsIgnoreTheRegistersTheyDoNotAccess := by
  unfold Obligations.CommandsIgnoreTheRegistersTheyDoNotAccess
  refine ⟨fun i s t a hi h => ?_, fun i s t c hi h => ?_⟩
  · exact exec_commutes (fun u => { u with acc := a }) rfl (fun _ => rfl) (fun _ => rfl) (performed_withAcc hi s a) h
  · exact exec_commutes (fun u => { u with cnt := c }) rfl (fun _ => rfl) (fun _ => rfl) (performed_withCnt hi s c) h

end Sys2Proof.Machine

namespace Sys2Proof.Machine

/-! ### The bytes of a word and of a message word (20_memory.md R51, R53) -/

/-- A word is determined by its four bytes. -/
theorem word_ext_byteOf {v w : Word} (h : ∀ q, byteOf v q = byteOf w q) : v = w := by
  apply BitVec.eq_of_getLsbD_eq
  intro k hk
  have hbit := congrArg (BitVec.getLsbD · (k % 8)) (h ⟨k / 8, by omega⟩)
  simpa [byteOf, Nat.mod_lt, Nat.div_add_mod] using hbit

/-- The bytes of a word made of four bytes are those four (R51). -/
theorem byteOf_wordOfBytes (b : Fin 4 → Byte) (q : Fin 4) :
    byteOf (wordOfBytes (b 0) (b 1) (b 2) (b 3)) q = b q := by
  have hskip {n : Nat} (x : BitVec n) (y : Byte) (k : Nat) : (x ++ y).extractLsb' (k + 8) 8 = x.extractLsb' k 8 :=
    BitVec.extractLsb'_append_eq_of_le (Nat.le_add_left 8 k)
  fin_cases q
  · exact BitVec.extractLsb'_append_eq_right
  · exact (hskip _ _ 0).trans BitVec.extractLsb'_append_eq_right
  · exact (hskip _ _ 8).trans ((hskip _ _ 0).trans BitVec.extractLsb'_append_eq_right)
  · exact (hskip _ _ 16).trans ((hskip _ _ 8).trans BitVec.extractLsb'_append_eq_left)

/-- The first byte has weight 1, the last 2^24 (R53). -/
theorem wordOfBytes_toNat (b0 b1 b2 b3 : Byte) :
    (wordOfBytes b0 b1 b2 b3).toNat =
      b0.toNat + b1.toNat * 2 ^ 8 + b2.toNat * 2 ^ 16 + b3.toNat * 2 ^ 24 := by
  have happend {n : Nat} (x : BitVec n) (y : Byte) : (x ++ y).toNat = x.toNat * 2 ^ 8 + y.toNat := by
    rw [BitVec.toNat_append, ← Nat.shiftLeft_add_eq_or_of_lt y.isLt, Nat.shiftLeft_eq]
  simp only [wordOfBytes, happend]
  omega

theorem messageWords_getElem (b : Block) (k : Fin 16) :
    (messageWords b)[k] = wordOfBytes b[4 * k.val] b[4 * k.val + 1] b[4 * k.val + 2] b[4 * k.val + 3] := by
  simp [messageWords]

/-- Byte `q` of message word `k` is block byte `4k + q` (R53). -/
theorem byteOf_messageWords (b : Block) (k : Fin 16) (q : Fin 4) :
    byteOf (messageWords b)[k] q = b[blockIndex k q] := by
  rw [messageWords_getElem]
  exact byteOf_wordOfBytes (fun q => b[blockIndex k q]) q

/-- Settles O39: the weights of the four bytes of a word, and the example from them. -/
theorem messageWordsAreLittleEndian : Obligations.MessageWordsAreLittleEndian := by
  unfold Obligations.MessageWordsAreLittleEndian
  refine ⟨fun b i => ?_, fun b h0 h1 h2 h3 => ?_⟩
  · rw [messageWords_getElem, wordOfBytes_toNat]
  · calc (messageWords b)[0] = wordOfBytes b[0] b[1] b[2] b[3] := messageWords_getElem b 0
      _ = 0x80636261 := by rw [h0, h1, h2, h3]; rfl

/-! ### What the transform sees after a load (20_memory.md R52, R53, R54) -/

@[simp] theorem State.respond_blockBytes (s : State) (v : Word) : (s.respond v).blockBytes = s.blockBytes := rfl

theorem State.storeByte_blockBytes (s : State) (i k : Fin 64) (b : Byte) :
    (s.storeByte i b).blockBytes[k] = if k = i then b else s.blockBytes[k] := by
  rw [State.blockBytes_getElem, State.blockBytes_getElem, Memory.read, State.storeByte_lookup]
  by_cases h : k = i
  · simp [h]
  · simp [h, Fin.val_ne_of_ne h, Memory.read]

theorem State.storeWord_blockBytes (s : State) (j k : Fin 16) (v : Word) (q : Fin 4) :
    (s.storeWord j v).blockBytes[blockIndex k q] =
      if k = j then byteOf v q else s.blockBytes[blockIndex k q] := by
  rw [State.blockBytes_getElem, State.blockBytes_getElem, blockIndex_val]
  by_cases h : k = j
  · subst h
    rw [if_pos rfl, Memory.read_of_lookup (s.storeWord_lookup_same k v q)]
  · rw [if_neg h, Memory.read, s.storeWord_lookup_other j v (by omega), Memory.read]

/-- Settles O38: a word is its four bytes, and each is the block byte that the load wrote or left. -/
theorem loadsPlaceTheMessageWords : Obligations.LoadsPlaceTheMessageWords := by
  unfold Obligations.LoadsPlaceTheMessageWords
  refine ⟨fun j v s hactive => ⟨_, exec_ldw_at hactive j v, fun k => ?_⟩,
    fun i b s hactive => ⟨_, exec_ldb_at hactive i b, fun k q => ?_⟩⟩
  · refine word_ext_byteOf fun q => ?_
    rw [apply_ite (byteOf · q), byteOf_messageWords, byteOf_messageWords, State.respond_blockBytes]
    exact s.storeWord_blockBytes j k v q
  · rw [byteOf_messageWords, byteOf_messageWords, State.respond_blockBytes, State.storeByte_blockBytes]
    simp only [Fin.ext_iff, blockIndex_val]

/-! ### One word at the command port (20_memory.md R60, 30_encoding.md R72) -/

/-- A step after `present` performs the word presented, whatever stands behind it. -/
theorem step_present (s : State) (w : CmdWord) : step (s.present w) = perform w s := step_cmd rfl

/-- A command word is one word of the opcode table's numbering. -/
theorem tableWord_toNat (w : CmdWord) : tableWord 48 w.toNat = some w := by
  rw [tableWord, Nat.mod_eq_of_lt w.isLt, if_pos w.isLt, BitVec.ofNat_toNat, BitVec.setWidth_eq]

theorem State.withFetchWord_toNat (s : State) (w : CmdWord) : s.withFetchWord 48 w.toNat = s.present w := by
  rw [State.withFetchWord, tableWord_toNat]

/-- Settles O7: the three answers of the decoder, then a word presented by its number. -/
theorem stepRunsTheDecodedCommand : Obligations.StepRunsTheDecodedCommand := by
  unfold Obligations.StepRunsTheDecodedCommand
  refine ⟨fun s w rest hin => ?_, fun s w => ?_⟩
  · rw [step_cmd hin]
    refine ⟨fun i hd => perform_command hd _, fun hd => ?_, fun hd => ?_⟩
    · rw [perform_illegal hd]
      exact reject_rejectedWith _ _
    · rw [perform_outOfBounds hd]
      exact reject_rejectedWith _ _
  · rw [State.withFetchWord_toNat, step_present]

theorem legalResponse_ok (v : Word) : LegalResponse (rspWord 0 v) := .inl (rspStatus_rspWord 0 v)

theorem legalResponse_error (e : ErrCode) : LegalResponse (rspWord e.status 0) :=
  .inr ⟨⟨e, rspStatus_rspWord e.status 0⟩, rspData_rspWord e.status 0⟩

/-- Settles O12: a word is rejected or performed, and both answer once and leave the input port. -/
theorem everyCommandGetsExactlyOneResponse : Obligations.EveryCommandGetsExactlyOneResponse := by
  unfold Obligations.EveryCommandGetsExactlyOneResponse
  intro s w rest hin
  rw [step_cmd hin]
  rcases perform_next w (s.withInput rest) with ⟨e, he⟩ | ⟨i, _, _, he⟩
  · exact ⟨_, _, he, rfl, rfl, legalResponse_error e⟩
  · exact ⟨_, _, he, effect_input i _, congrArg (rspWord 0 _ :: ·) (effect_rsps i _), legalResponse_ok _⟩

/-! ### A run over a list of words (20_memory.md R60, 70_reset_and_hazards.md R270) -/

/-- A run whose first step answers `t` is the rest of the run from `t`. -/
theorem run_succ_of_step {s t : State} (h : step s = .next t) (k : Nat) :
    Host.Core.run Sys2Proof.core (k + 1) s = Host.Core.run Sys2Proof.core k t :=
  (run_succ k s).trans (congrArg (andThen · _) h)

theorem performAll_cons_of_perform {w : CmdWord} {s t : State} (h : perform w s = .next t) (ws : List CmdWord) :
    performAll (w :: ws) s = performAll ws t :=
  congrArg (andThen · (performAll ws)) h

/-- Settles O13, by induction on the list of words: the first word does the same whatever stands behind it. -/
theorem runIsTheFoldOverThePresentedWords : Obligations.RunIsTheFoldOverThePresentedWords := by
  unfold Obligations.RunIsTheFoldOverThePresentedWords
  intro ws
  induction ws with
  | nil => exact fun _ _ => rfl
  | cons w ws ih =>
    intro s rest
    obtain ⟨t, ht, hqueued⟩ := perform_withInput w s (ws.map .cmd ++ rest)
    obtain ⟨u, hu, halone⟩ := perform_withInput w s rest
    cases ht.symm.trans hu
    have hstep : step (s.withInput ((w :: ws).map .cmd ++ rest)) = .next (t.withInput (ws.map .cmd ++ rest)) :=
      (step_cmd rfl).trans hqueued
    have hhead := run_succ_of_step hstep ws.length
    have htail : performAll (w :: ws) (s.withInput rest) = performAll ws (t.withInput rest) :=
      performAll_cons_of_perform halone ws
    exact hhead.trans ((ih t rest).trans htail.symm)

end Sys2Proof.Machine

namespace Sys2Proof.Machine

/-! ### What the decoder answers, outcome by outcome (30_encoding.md R74 to R78) -/

/-- Settles O2: an encoding is a word of its command's own row, so that row's limit alone decides. -/
theorem encodeThenDecodeGivesTheCommandBack : Obligations.EncodeThenDecodeGivesTheCommandBack := by
  unfold Obligations.EncodeThenDecodeGivesTheCommandBack
  intro i
  rw [encode_eq, decode_of_row _ _ _ (reservedZero_fields i), inLimit_wellFormed, operandsOf_fields]

/-- Every word is made of three fields (R70). -/
theorem exists_eq_cmdWord (w : CmdWord) : ∃ op idx data, w = cmdWord op idx data :=
  ⟨opField w, idxField w, dataField w, (cmdWord_fields w).symm⟩

/-- Settles O3: a command is decoded only by a row that selects the word, and its operands are the word's fields. -/
theorem decodedWordIsTheEncodingOfItsCommand : Obligations.DecodedWordIsTheEncodingOfItsCommand := by
  unfold Obligations.DecodedWordIsTheEncodingOfItsCommand
  intro w i h
  obtain ⟨op, idx, data, rfl⟩ := exists_eq_cmdWord w
  rcases decode_cases op idx data with ⟨m, rfl, hzero, hrow⟩ | ⟨_, hill⟩
  · rw [hrow] at h
    split at h
    next hin =>
      cases h
      exact ⟨encode_operandsOf m idx data hzero, (wellFormed_operandsOf m idx data).trans hin⟩
    next => cases h
  · cases hill.symm.trans h

/-- Settles O5: both rows ask for the word's one opcode, and no two mnemonics share an opcode. -/
theorem noTwoRowsMatchOneWord : Obligations.NoTwoRowsMatchOneWord := by
  unfold Obligations.NoTwoRowsMatchOneWord
  intro w m n hm hn
  obtain ⟨op, idx, data, rfl⟩ := exists_eq_cmdWord w
  have hop := ((opRow_selects m op idx data).mp hm).1
  have hop' := ((opRow_selects n op idx data).mp hn).1
  exact opcodeOf_inj (hop.symm.trans hop')

/-- A word of a row's opcode is illegal exactly when a bit that the row reserves is set (R76). -/
theorem decode_opcodeOf_eq_illegal_iff (m : Mnemonic) (idx : BitVec 8) (data : Word) :
    decode (cmdWord (opcodeOf m) idx data) = .illegal ↔ ¬ reservedZero m idx data := by
  refine ⟨fun hill hzero => ?_, decode_reserved_set⟩
  rw [decode_of_row m idx data hzero] at hill
  split at hill <;> cases hill

/-- A word is illegal exactly when no row selects it (R76, R77). -/
theorem decode_eq_illegal_iff (w : CmdWord) : decode w = .illegal ↔ ∀ m, (opRow m).selects w = false := by
  obtain ⟨op, idx, data, rfl⟩ := exists_eq_cmdWord w
  simp only [← Bool.not_eq_true, opRow_selects, not_and]
  refine ⟨?_, decode_illegal op idx data⟩
  rintro hill m rfl
  exact (decode_opcodeOf_eq_illegal_iff m idx data).mp hill

/-- The condition of R76 on the three fields: an undefined opcode, or a reserved bit of a defined one that is 1. -/
theorem decode_eq_illegal_iff_fields (op idx : BitVec 8) (data : Word) : decode (cmdWord op idx data) = .illegal ↔
    (op.toNat = 0 ∨ 12 < op.toNat) ∨
    (op ∈ [0x01, 0x05, 0x09, 0x0A] ∧ (idx ≠ 0 ∨ data ≠ 0)) ∨
    (op = 0x02 ∧ idx ≠ 0) ∨
    (op ∈ [0x06, 0x07, 0x08] ∧ data ≠ 0) ∨
    (op = 0x03 ∧ data.extractLsb' 8 24 ≠ 0) := by
  by_cases hop : ∃ m, op = opcodeOf m
  · obtain ⟨m, rfl⟩ := hop
    rw [decode_opcodeOf_eq_illegal_iff]
    cases m <;> simp [reservedZero, opcodeOf, imp_iff_not_or]
  · have hundef : op.toNat = 0 ∨ 12 < op.toNat := by
      rw [exists_opcodeOf] at hop
      omega
    exact iff_of_true (decode_illegal op idx data fun m hm => absurd ⟨m, hm⟩ hop) (.inl hundef)

/-- Settles O4: the fields' condition, the rows' condition, and the decoder's refusal as a rejection. -/
theorem illegalExactlyOnUndefinedOpcodeOrReservedBit : Obligations.IllegalExactlyOnUndefinedOpcodeOrReservedBit :=
  ⟨decode_eq_illegal_iff_fields, decode_eq_illegal_iff,
    fun _ s h => perform_illegal h s ▸ reject_rejectedWith .illegal s⟩

theorem opRow_inLimit_eq_false_iff (m : Mnemonic) (idx : BitVec 8) :
    (opRow m).inLimit idx = false ↔ ∃ bound, (opRow m).limit = some bound ∧ bound ≤ idx.toNat := by
  unfold OpRow.inLimit
  cases (opRow m).limit <;> simp

/-- A word is OutOfBounds exactly when the row that selects it has a limit that its index is not below (R75). -/
theorem decode_eq_outOfBounds_iff (op idx : BitVec 8) (data : Word) : decode (cmdWord op idx data) = .outOfBounds ↔
    ∃ m bound, op = opcodeOf m ∧ reservedZero m idx data ∧ (opRow m).limit = some bound ∧ bound ≤ idx.toNat := by
  simp only [exists_and_left, ← opRow_inLimit_eq_false_iff]
  constructor
  · intro h
    rcases decode_cases op idx data with ⟨m, hop, hzero, hrow⟩ | ⟨_, hill⟩
    · rw [hrow] at h
      split at h
      next => cases h
      next hout => exact ⟨m, hop, hzero, Bool.eq_false_of_not_eq_true hout⟩
    · cases hill.symm.trans h
  · rintro ⟨m, rfl, hzero, hout⟩
    rw [decode_of_row m idx data hzero, hout]
    rfl

/-- Settles O6: the rows with a limit are the seven listed, and the decoder's refusal is a rejection. -/
theorem outOfBoundsExactlyAtTheIndexLimits : Obligations.OutOfBoundsExactlyAtTheIndexLimits := by
  unfold Obligations.OutOfBoundsExactlyAtTheIndexLimits
  refine ⟨fun op idx data => ?_, fun _ s h => perform_outOfBounds h s ▸ reject_rejectedWith .bounds s⟩
  rw [decode_eq_outOfBounds_iff]
  constructor
  · rintro ⟨m, bound, rfl, hzero, hlimit, hout⟩
    cases m <;> cases hlimit
    · exact .inl ⟨rfl, hzero, hout⟩
    · exact .inr (.inl ⟨rfl, hout⟩)
    · exact .inr (.inr (.inl ⟨rfl, hzero, hout⟩))
    · exact .inr (.inr (.inr (.inl ⟨rfl, hzero, hout⟩)))
    · exact .inr (.inr (.inr (.inr (.inl ⟨rfl, hzero, hout⟩))))
    · exact .inr (.inr (.inr (.inr (.inr (.inl ⟨rfl, hout⟩)))))
    · exact .inr (.inr (.inr (.inr (.inr (.inr ⟨rfl, hout⟩)))))
  · rintro (⟨rfl, hzero, hout⟩ | ⟨rfl, hout⟩ | ⟨rfl, hzero, hout⟩ | ⟨rfl, hzero, hout⟩ | ⟨rfl, hzero, hout⟩ |
      ⟨rfl, hout⟩ | ⟨rfl, hout⟩)
    · exact ⟨.ldb, _, rfl, hzero, rfl, hout⟩
    · exact ⟨.ldw, _, rfl, trivial, rfl, hout⟩
    · exact ⟨.rdacc, _, rfl, hzero, rfl, hout⟩
    · exact ⟨.rddg, _, rfl, hzero, rfl, hout⟩
    · exact ⟨.rdcnt, _, rfl, hzero, rfl, hout⟩
    · exact ⟨.wracc, _, rfl, trivial, rfl, hout⟩
    · exact ⟨.wrcnt, _, rfl, trivial, rfl, hout⟩

/-- Settles O1, by running the decoder on each of the words. -/
theorem listedWordsDecodeAsListed : Obligations.ListedWordsDecodeAsListed := by
  unfold Obligations.ListedWordsDecodeAsListed
  decide

end Sys2Proof.Machine

namespace Sys2Proof.Machine

/-! ### The commands that both phases perform (40_lifecycle.md R103, 60_exceptions.md R234) -/

theorem anyPhase_iff_mem {i : Instr} : anyPhase i = true ↔ i ∈ [.init, .scrub, .rdstat] := by
  rw [anyPhase_iff]
  simp

theorem anyPhase_eq_false_of_notMem {i : Instr} (h : i ∉ [.init, .scrub, .rdstat]) : anyPhase i = false :=
  Bool.eq_false_of_not_eq_true (mt anyPhase_iff_mem.mp h)

/-- The phase after a command: INIT and SCRUB are never rejected, and a rejection leaves the phase. -/
theorem exec_phase {i : Instr} {s t : State} (h : exec i s = .next t) :
    t.phase = if i = .init then .active else if i = .scrub then .idle else s.phase := by
  by_cases hany : anyPhase i = true
  · cases (exec_anyPhase hany s).symm.trans h
    exact effect_phase i s
  · rcases exec_next i s with ⟨e, he⟩ | he
    · have hinit : i ≠ .init := fun hi => hany (hi ▸ rfl)
      have hscrub : i ≠ .scrub := fun hi => hany (hi ▸ rfl)
      cases he.symm.trans h
      rw [if_neg hinit, if_neg hscrub]
      rfl
    · cases he.symm.trans h
      exact effect_phase i s

/-- A well-formed command is performed in a phase that allows it, XFORM with a complete block only. -/
theorem exec_performed {i : Instr} (hw : i.wellFormed = true) {s : State} (hfull : i = .xform → s.full = true)
    (hguard : s.phase = .active ∨ anyPhase i = true) :
    exec i s = .next ((effect i s).respond (answerData i s)) :=
  hguard.elim (fun hactive => exec_active hw hactive hfull) (fun hany => exec_anyPhase hany s)

theorem exists_exec_eq_next (i : Instr) (s : State) : ∃ t, exec i s = .next t :=
  (exec_next i s).elim (fun ⟨_, he⟩ => ⟨_, he⟩) (fun he => ⟨_, he⟩)

/-- Settles O23: the phase of the state a command leaves, the lifecycle check, and the commands that pass it. -/
theorem phaseFollowsTheTransitionTable : Obligations.PhaseFollowsTheTransitionTable := by
  unfold Obligations.PhaseFollowsTheTransitionTable
  refine ⟨fun i s => ?_, fun i s hw hnot hidle => ?_, fun i s hw hfull hguard => ?_, fun s => ⟨_, rfl, rfl⟩⟩
  · obtain ⟨t, ht⟩ := exists_exec_eq_next i s
    exact ⟨t, ht, exec_phase ht⟩
  · exact exec_idle_rejectedWith hw (anyPhase_eq_false_of_notMem hnot) hidle
  · have hperformed := exec_performed hw (fun hx => s.full_iff.mpr (hfull hx)) (hguard.imp_right anyPhase_iff_mem.mpr)
    exact ⟨_, answerData i s, hperformed, by rw [State.respond_rsps, effect_rsps]⟩

/-! ### The fields of the status word, bit by bit and several together (10_state.md R30, 40_lifecycle.md R102) -/

theorem State.status_bit_active (s : State) : s.status.getLsbD 0 = decide (s.phase = .active) := by
  rw [getLsbD_of_field, State.status_active, State.activeBit]
  cases s.phase <;> rfl

theorem State.status_bit_full (s : State) : s.status.getLsbD 15 = s.full := by
  rw [getLsbD_of_field, State.status_full]
  exact BitVec.getLsbD_ofBool s.full 0

/-- The 7 bits of FILL hold every count from 0 to 64. -/
theorem State.status_fill_toNat (s : State) : (s.status.extractLsb' 8 7).toNat = s.fill := by
  rw [State.status_fill, BitVec.toNat_ofNat]
  exact Nat.mod_eq_of_lt (by have := s.fill_le; omega)

theorem State.status_full_fill (s : State) :
    s.status.extractLsb' 8 8 = BitVec.ofBool s.full ++ BitVec.ofNat 7 s.fill := by
  rw [← State.status_full, ← State.status_fill]
  exact (BitVec.extractLsb'_append_extractLsb'_eq_extractLsb' (start₁ := 8) (len₁ := 7) (len₂ := 1) rfl).symm

theorem State.status_index_full_fill (s : State) :
    s.status.extractLsb' 8 14 = s.index ++ (BitVec.ofBool s.full ++ BitVec.ofNat 7 s.fill) := by
  rw [← State.status_index, ← State.status_full_fill]
  exact (BitVec.extractLsb'_append_extractLsb'_eq_extractLsb' (start₁ := 8) (len₁ := 8) (len₂ := 6) rfl).symm

/-- FULL over FILL of a complete block. -/
theorem State.status_of_full {s : State} (hfull : s.full = true) : s.status.extractLsb' 8 8 = 0xC0 := by
  rw [State.status_full_fill, hfull, s.full_iff_fill.mp hfull]
  rfl

/-- INDEX, FULL and FILL of an erased IDLE core are 0. -/
theorem State.IdleErased.status_index_full_fill {s : State} (h : s.IdleErased) (hidle : s.phase = .idle) :
    s.status.extractLsb' 8 14 = 0 := by
  obtain ⟨_, hcnt, hblkv⟩ := h hidle
  rw [State.status_index_full_fill, State.index, State.full, State.fill, hcnt, hblkv]
  decide

/-- Settles O29: RDSTAT answers `State.status`, whose fields are read off one by one. -/
theorem statusWordShowsTheStateFields : Obligations.StatusWordShowsTheStateFields := by
  unfold Obligations.StatusWordShowsTheStateFields
  refine ⟨decode_of_row .rdstat 0 0 ⟨rfl, rfl⟩,
    fun idx data hset => (decode_opcodeOf_eq_illegal_iff .rdstat idx data).mpr (not_and_or.mpr hset),
    fun s => ⟨s.status, rfl, s.status_bit_active, s.status_low_reserved, s.status_err, ?_, ?_, s.status_index,
      s.status_high_reserved, fun hfull => State.status_of_full (s.full_iff.mpr hfull),
      fun hidle herased => herased.status_index_full_fill hidle⟩,
    ⟨_, rfl, by decide⟩⟩
  · rw [State.status_fill_toNat, ← List.countP_eq_length_filter]
    rfl
  · rw [State.status_bit_full, Bool.eq_iff_iff, State.full_iff, decide_eq_true_iff]
    rfl

/-! ### INIT (40_lifecycle.md R100) -/

/-- A digest begun again: of the core, ERR alone is carried over, and INIT has left it as it was. -/
theorem sameCore_of_exec_init {s t u : State} (ht : exec .init s = .next t) (hu : exec .init t = .next u) :
    SameCore t u := by
  cases ht
  cases hu
  exact ⟨rfl, rfl, rfl, rfl, rfl, rfl⟩

/-- Settles O27: the effect is `State.begin` in every state, and the status of a fresh digest is its ACTIVE bit. -/
theorem initStartsAFreshDigest : Obligations.InitStartsAFreshDigest := by
  unfold Obligations.InitStartsAFreshDigest
  exact ⟨decode_of_row .init 0 0 ⟨rfl, rfl⟩,
    fun idx data hset => (decode_opcodeOf_eq_illegal_iff .init idx data).mpr (not_and_or.mpr hset),
    fun _ => rfl, fun _ _ _ => sameCore_of_exec_init, ⟨_, rfl, by decide⟩⟩

end Sys2Proof.Machine

namespace Sys2Proof.Machine

/-! ### COUNT (41_bitcount.md R120, R121, R123) -/

/-- The two ways to see the carry of R120: the low word wrapped below the addend, or the sum has bit 32. -/
theorem countLow_lt_addend_iff_carry (low len : Word) :
    (countLow low len).toNat < (len.toNat * 8) % 2 ^ 32 ↔
      (low.toNat + (len.toNat * 8) % 2 ^ 32) / 2 ^ 32 = 1 := by
  have hlow := low.isLt
  rw [countLow_toNat]
  omega

/-- Advancing reads the two counter words and nothing else of the state. -/
theorem State.advance_of_cnt {s : State} {v : Vector Word 2} (h : s.cnt = v) (len : Word) :
    s.advance len = { s with cnt := #v[countLow v[0] len, countHigh v[0] v[1] len] } := by
  subst h
  rfl

/-- The two words, seen as one number, are advanced by eight times the length: the bits of `8 * len` above the low word
are the three high bits of `len`, and the carry joins the words. -/
theorem State.advance_bitCount (s : State) (len : Word) :
    (s.advance len).bitCount = (s.bitCount + 8 * len.toNat) % 2 ^ 64 := by
  have hlow := s.cnt[0].isLt
  have hlen := len.isLt
  simp only [State.bitCount, State.advance_low, State.advance_high, countLow_toNat, countHigh_toNat]
  omega

theorem countLow_zero (low : Word) : countLow low 0 = low := by
  have hlow := low.isLt
  apply BitVec.eq_of_toNat_eq
  simp only [countLow_toNat, BitVec.ofNat_eq_ofNat, BitVec.toNat_ofNat]
  omega

theorem countHigh_zero (low high : Word) : countHigh low high 0 = high := by
  have hlow := low.isLt
  have hhigh := high.isLt
  apply BitVec.eq_of_toNat_eq
  simp only [countHigh_toNat, BitVec.ofNat_eq_ofNat, BitVec.toNat_ofNat]
  omega

/-- Advancing by no byte changes nothing (R123). -/
theorem State.advance_zero (s : State) : s.advance 0 = s := by
  have hcnt : #v[countLow s.cnt[0] 0, countHigh s.cnt[0] s.cnt[1] 0] = s.cnt := by
    rw [countLow_zero, countHigh_zero]
    ext k hk
    interval_cases k <;> rfl
  exact congrArg (fun v => { s with cnt := v }) hcnt

/-- COUNT is rejected in IDLE, whatever the length (R120). -/
theorem exec_count_idle_rejectedWith (len : Word) {s : State} (hidle : s.phase = .idle) :
    RejectedWith .state s (exec (.count len) s) :=
  exec_idle_rejectedWith rfl rfl hidle

/-- Settles O31: COUNT in ACTIVE is `State.advance`, whose two words are R120's, and the example wraps the low one. -/
theorem countAddsTheLengthByWordsAndCarry : Obligations.CountAddsTheLengthByWordsAndCarry := by
  unfold Obligations.CountAddsTheLengthByWordsAndCarry
  refine ⟨fun len => decode_of_row .count 0 len rfl,
    fun idx data hidx => (decode_opcodeOf_eq_illegal_iff .count idx data).mpr hidx,
    fun len _ hidle => exec_count_idle_rejectedWith len hidle,
    fun len s hactive => ⟨countLow s.cnt[0] len, countHigh s.cnt[0] s.cnt[1] len, exec_count_active hactive len,
      countLow_toNat _ _, countHigh_toNat _ _ _, countLow_lt_addend_iff_carry _ _⟩,
    fun s hactive hcnt => ?_⟩
  rw [exec_count_active hactive, State.advance_of_cnt hcnt]
  rfl

/-- Settles O32: COUNT in ACTIVE is `State.advance`, and its response leaves the counter. -/
theorem countIsASixtyFourBitAddition : Obligations.CountIsASixtyFourBitAddition :=
  fun len s hactive => ⟨_, exec_count_active hactive len, s.advance_bitCount len⟩

/-- Settles O34: in ACTIVE the counter is advanced by no byte, and IDLE rejects every COUNT. -/
theorem countZeroChangesNothing : Obligations.CountZeroChangesNothing := by
  unfold Obligations.CountZeroChangesNothing
  refine ⟨fun s hactive => ?_, fun _ hidle => exec_count_idle_rejectedWith 0 hidle⟩
  rw [exec_count_active hactive, State.advance_zero]
  rfl

end Sys2Proof.Machine

namespace Sys2Proof.Machine

/-! ### LDB and LDW (42_blockload.md R130, R131) -/

theorem decode_encode_of_wellFormed {i : Instr} (h : i.wellFormed = true) : decode (encode i) = .command i :=
  (encodeThenDecodeGivesTheCommandBack i).trans (if_pos h)

theorem decode_encode_of_not_wellFormed {i : Instr} (h : i.wellFormed = false) : decode (encode i) = .outOfBounds :=
  (encodeThenDecodeGivesTheCommandBack i).trans (if_neg (Bool.eq_false_iff.mp h))

/-- A command whose index is out of range is rejected with ErrBounds, as `RejectedWith` says it. -/
theorem exec_outOfBounds_rejectedWith {i : Instr} (h : i.wellFormed = false) (s : State) :
    RejectedWith .bounds s (exec i s) :=
  (exec_outOfBounds h s).trans (reject_rejectedWith .bounds s)

theorem wellFormed_ldb {pos : BitVec 8} (h : pos.toNat < 64) (byte : Byte) : (Instr.ldb pos byte).wellFormed = true :=
  decide_eq_true h

theorem not_wellFormed_ldb {pos : BitVec 8} (h : 64 ≤ pos.toNat) (byte : Byte) :
    (Instr.ldb pos byte).wellFormed = false :=
  decide_eq_false (Nat.not_lt.mpr h)

theorem wellFormed_ldw {j : BitVec 8} (h : j.toNat < 16) (v : Word) : (Instr.ldw j v).wellFormed = true :=
  decide_eq_true h

theorem not_wellFormed_ldw {j : BitVec 8} (h : 16 ≤ j.toNat) (v : Word) : (Instr.ldw j v).wellFormed = false :=
  decide_eq_false (Nat.not_lt.mpr h)

/-- LDB in ACTIVE, its index an operand below the limit. -/
theorem exec_ldb_active {s : State} (hactive : s.phase = .active) {pos : BitVec 8} (hpos : pos.toNat < 64)
    (byte : Byte) : exec (.ldb pos byte) s = .next ((s.storeByte ⟨pos.toNat, hpos⟩ byte).respond 0) := by
  simpa using exec_ldb_at hactive ⟨pos.toNat, hpos⟩ byte

/-- LDW in ACTIVE, its index an operand below the limit. -/
theorem exec_ldw_active {s : State} (hactive : s.phase = .active) {j : BitVec 8} (hj : j.toNat < 16) (v : Word) :
    exec (.ldw j v) s = .next ((s.storeWord ⟨j.toNat, hj⟩ v).respond 0) := by
  simpa using exec_ldw_at hactive ⟨j.toNat, hj⟩ v

/-- A byte stored into a block without valid bytes leaves its one valid bit. -/
theorem State.storeByte_blkv_of_empty {s : State} (h : s.blkv = 0) (i : Fin 64) (b : Byte) :
    (s.storeByte i b).blkv = 1#64 <<< i.val := by
  rw [State.storeByte_blkv, h]
  exact BitVec.zero_or

/-- Settles O35: LDB in ACTIVE is `State.storeByte`, which writes one cell and sets one bit. -/
theorem loadByteWritesOneBlockByte : Obligations.LoadByteWritesOneBlockByte := by
  unfold Obligations.LoadByteWritesOneBlockByte
  refine ⟨fun _ byte hpos => decode_encode_of_wellFormed (wellFormed_ldb hpos byte),
    fun pos data hset => (decode_opcodeOf_eq_illegal_iff .ldb pos data).mpr hset,
    fun _ byte hout => decode_encode_of_not_wellFormed (not_wellFormed_ldb hout byte),
    fun _ byte s hout => exec_outOfBounds_rejectedWith (not_wellFormed_ldb hout byte) s,
    fun _ byte _ hpos hidle => exec_idle_rejectedWith (wellFormed_ldb hpos byte) rfl hidle,
    fun pos byte s hpos hactive => ?_, fun s hactive hempty => ?_⟩
  · exact ⟨_, exec_ldb_active hactive hpos byte, Memory.lookup_store_same s.blk pos.toNat byte,
      fun _ hother => Memory.lookup_store_other s.blk byte hother, s.storeByte_blkv_bit ⟨pos.toNat, hpos⟩ byte,
      rfl, rfl, rfl, rfl, rfl, rfl⟩
  · have hblkv : ((s.storeByte 5 0x61).respond 0).blkv = 0x20 := State.storeByte_blkv_of_empty hempty 5 0x61
    refine ⟨_, exec_ldb_at hactive 5 0x61, hblkv, ?_⟩
    rw [State.fill, hblkv]
    decide

/-- Settles O36: LDW in ACTIVE is `State.storeWord`, which writes the four cells of its word and sets their bits. -/
theorem loadWordWritesFourBlockBytes : Obligations.LoadWordWritesFourBlockBytes := by
  unfold Obligations.LoadWordWritesFourBlockBytes
  refine ⟨fun _ v hj => decode_encode_of_wellFormed (wellFormed_ldw hj v),
    fun _ v hout => decode_encode_of_not_wellFormed (not_wellFormed_ldw hout v),
    fun _ v s hout => exec_outOfBounds_rejectedWith (not_wellFormed_ldw hout v) s,
    fun _ v _ hj hidle => exec_idle_rejectedWith (wellFormed_ldw hj v) rfl hidle,
    fun j v s hj hactive => ?_⟩
  have hbyte := s.storeWord_lookup_same ⟨j.toNat, hj⟩ v
  exact ⟨_, exec_ldw_active hactive hj v, hbyte 0, hbyte 1, hbyte 2, hbyte 3,
    fun _ hother => s.storeWord_lookup_other ⟨j.toNat, hj⟩ v hother, s.storeWord_blkv_bit ⟨j.toNat, hj⟩ v,
    rfl, rfl, rfl, rfl, rfl, rfl⟩

/-! ### LDW against four LDBs (42_blockload.md R132) -/

/-- The LDB of byte `k` of the word that LDW `j`, `v` loads. -/
def byteLoad (j : Fin 16) (v : Word) (k : Fin 4) : Instr :=
  .ldb (BitVec.ofNat 8 (blockIndex j k).val) (byteOf v k)

theorem exec_byteLoad {s : State} (hactive : s.phase = .active) (j : Fin 16) (v : Word) (k : Fin 4) :
    exec (byteLoad j v k) s = .next ((s.storeByte (blockIndex j k) (byteOf v k)).respond 0) :=
  exec_ldb_at hactive (blockIndex j k) (byteOf v k)

theorem wellFormed_byteLoad (j : Fin 16) (v : Word) (k : Fin 4) : (byteLoad j v k).wellFormed = true := by
  have hin := (blockIndex j k).isLt
  exact wellFormed_ldb (by rw [BitVec.toNat_ofNat]; omega) (byteOf v k)

theorem anyPhase_byteLoad (j : Fin 16) (v : Word) (k : Fin 4) : anyPhase (byteLoad j v k) = false := rfl

/-- The four LDBs of R132, the least significant byte first. -/
def byteLoads (j : Fin 16) (v : Word) : List Instr := [byteLoad j v 0, byteLoad j v 1, byteLoad j v 2, byteLoad j v 3]

/-- In ACTIVE the four LDBs store the word, and answer four times. -/
theorem issueAll_byteLoads_active {s : State} (hactive : s.phase = .active) (j : Fin 16) (v : Word) :
    issueAll (byteLoads j v) s =
      .next { s.storeWord j v with rsps := List.replicate 4 (rspWord 0 0) ++ s.rsps } := by
  simp only [byteLoads, issueAll_cons, exec_byteLoad, andThen_next, State.respond_phase, State.storeByte_phase, hactive]
  rfl

/-- Where an error is recorded already, a rejection changes nothing but the response port (10_state.md R29). -/
theorem State.latch_of_recorded {s : State} (h : s.err ≠ 0) (e : ErrCode) : s.latch e = s := by
  rw [State.latch, if_neg h]

/-- In IDLE with an error recorded, commands that need ACTIVE change nothing and answer ErrState each. -/
theorem issueAll_idle_of_recorded (is : List Instr) (hall : ∀ i ∈ is, i.wellFormed = true ∧ anyPhase i = false)
    {s : State} (hidle : s.phase = .idle) (herr : s.err ≠ 0) :
    issueAll is s =
      .next { s with rsps := List.replicate is.length (rspWord ErrCode.state.status 0) ++ s.rsps } := by
  induction is generalizing s with
  | nil => rfl
  | cons i is ih =>
    obtain ⟨⟨hwell, hneed⟩, hrest⟩ := List.forall_mem_cons.mp hall
    rw [issueAll_cons, exec_idle hwell hneed hidle, State.reject_eq, State.latch_of_recorded herr, andThen_next,
      ih hrest (s := s.answer _ _) hidle herr, List.length_cons, List.replicate_succ', List.append_assoc]
    rfl

/-- In IDLE the first of the four LDBs records ErrState as LDW does, and the other three only answer. -/
theorem issueAll_byteLoads_idle {s : State} (hidle : s.phase = .idle) (j : Fin 16) (v : Word) :
    issueAll (byteLoads j v) s = .next { s.latch .state with
      rsps := List.replicate 4 (rspWord ErrCode.state.status 0) ++ s.rsps } := by
  rw [byteLoads, issueAll_cons, exec_idle (wellFormed_byteLoad j v 0) (anyPhase_byteLoad j v 0) hidle, State.reject_eq,
    andThen_next]
  refine issueAll_idle_of_recorded [byteLoad j v 1, byteLoad j v 2, byteLoad j v 3] ?_
    (s := (s.latch .state).answer ErrCode.state.status 0) hidle (s.latch_err_ne_zero .state)
  simp [wellFormed_byteLoad, anyPhase_byteLoad]

theorem exec_ldw_idle {s : State} (hidle : s.phase = .idle) (j : Fin 16) (v : Word) :
    exec (.ldw (BitVec.ofNat 8 j.val) v) s = .next ((s.latch .state).answer ErrCode.state.status 0) := by
  have hin := j.isLt
  exact exec_idle (wellFormed_ldw (by rw [BitVec.toNat_ofNat]; omega) v) rfl hidle

/-- Settles O37: in ACTIVE both store the word, and in IDLE both record ErrState. -/
theorem loadWordEqualsFourByteLoads : Obligations.LoadWordEqualsFourByteLoads := by
  unfold Obligations.LoadWordEqualsFourByteLoads
  intro j v s
  rcases s.phase.idle_or_active with hidle | hactive
  · exact ⟨_, _, exec_ldw_idle hidle j v, issueAll_byteLoads_idle hidle j v, ⟨rfl, rfl, rfl, rfl, rfl, rfl⟩,
      rfl, by simp⟩
  · exact ⟨_, _, exec_ldw_at hactive j v, issueAll_byteLoads_active hactive j v, ⟨rfl, rfl, rfl, rfl, rfl, rfl⟩,
      rfl, by simp⟩

end Sys2Proof.Machine

namespace Sys2Proof.Machine

/-! ### The round functions on one bit position (43_transform.md R143 to R145, R155) -/

theorem roundF_getLsbD (x y z : Word) {i : Nat} (hi : i < 32) :
    (roundF x y z).getLsbD i = if x.getLsbD i then y.getLsbD i else z.getLsbD i := by
  rw [roundF, BitVec.getLsbD_or, BitVec.getLsbD_and, BitVec.getLsbD_and, BitVec.getLsbD_not, decide_eq_true hi]
  cases x.getLsbD i <;> simp

theorem roundG_getLsbD (x y z : Word) (i : Nat) :
    (roundG x y z).getLsbD i = decide (2 ≤ (x.getLsbD i).toNat + (y.getLsbD i).toNat + (z.getLsbD i).toNat) := by
  simp only [roundG, BitVec.getLsbD_or, BitVec.getLsbD_and]
  cases x.getLsbD i <;> cases y.getLsbD i <;> cases z.getLsbD i <;> rfl

theorem roundH_getLsbD (x y z : Word) (i : Nat) :
    (roundH x y z).getLsbD i =
      decide (((x.getLsbD i).toNat + (y.getLsbD i).toNat + (z.getLsbD i).toNat) % 2 = 1) := by
  simp only [roundH, BitVec.getLsbD_xor]
  cases x.getLsbD i <;> cases y.getLsbD i <;> cases z.getLsbD i <;> rfl

/-- Choice without a complement: `x` selects where `y` and `z` differ. -/
theorem roundF_eq_xor (x y z : Word) : roundF x y z = z ^^^ (x &&& (y ^^^ z)) := by
  apply BitVec.eq_of_getLsbD_eq
  intro i hi
  rw [roundF_getLsbD x y z hi, BitVec.getLsbD_xor, BitVec.getLsbD_and, BitVec.getLsbD_xor]
  cases x.getLsbD i <;> simp [Bool.xor_left_comm]

/-- Majority with one factor taken out: distributivity. -/
theorem roundG_eq_or (x y z : Word) : roundG x y z = (x &&& y) ||| (z &&& (x ||| y)) := by
  apply BitVec.eq_of_getLsbD_eq
  intro i _
  simp only [roundG, BitVec.getLsbD_or, BitVec.getLsbD_and]
  rw [Bool.or_assoc, ← Bool.and_or_distrib_right, Bool.and_comm (_ || _)]

/-- Settles O41: the functions bit by bit, and the two identities from their bits. -/
theorem roundFunctionsBitByBit : Obligations.RoundFunctionsBitByBit := by
  unfold Obligations.RoundFunctionsBitByBit
  exact ⟨fun x y z i hi => ⟨roundF_getLsbD x y z hi, roundG_getLsbD x y z i, roundH_getLsbD x y z i⟩,
    fun x y z => ⟨roundF_eq_xor x y z, roundG_eq_or x y z⟩⟩

/-! ### The schedule (43_transform.md R147 to R150) -/

theorem roundOf_fn (t : Fin 48) :
    (roundOf t).fn = if t.val < 16 then roundF else if t.val < 32 then roundG else roundH := by
  unfold roundOf
  split_ifs <;> rfl

/-- Settles O40: the four columns by evaluation, the round function from the round of the step. -/
theorem scheduleIsTheTableOfTheSpec : Obligations.ScheduleIsTheTableOfTheSpec := by
  unfold Obligations.ScheduleIsTheTableOfTheSpec
  refine ⟨by decide, by decide, by decide, by decide, fun t x y z => ?_⟩
  rw [roundOf_fn]
  split_ifs <;> rfl

/-! ### The rotation (43_transform.md R146) -/

/-- For the amounts that the spec allows, `rol` is the library's rotation. -/
theorem rol_eq_rotateLeft (v : Word) {n : Nat} (hn : n < 32) : rol v n = v.rotateLeft n := by
  rw [rol, BitVec.rotateLeft_def, Nat.mod_eq_of_lt hn]

/-- The bits that leave at the top are a number below `2 ^ n`, and enter where the shift has left zeros. -/
theorem rol_toNat (v : Word) {n : Nat} (hn : n ≤ 32) :
    (rol v n).toNat = (v.toNat * 2 ^ n) % 2 ^ 32 + v.toNat / 2 ^ (32 - n) := by
  have hsplit : 2 ^ 32 = 2 ^ (32 - n) * 2 ^ n := by rw [← pow_add, Nat.sub_add_cancel hn]
  have htop : v.toNat / 2 ^ (32 - n) < 2 ^ n := Nat.div_lt_of_lt_mul (hsplit ▸ v.isLt)
  have hlow : v.toNat * 2 ^ n % 2 ^ 32 = (v.toNat % 2 ^ (32 - n)) <<< n := by
    rw [hsplit, Nat.mul_mod_mul_right, Nat.shiftLeft_eq]
  rw [rol, BitVec.toNat_or, BitVec.toNat_shiftLeft, BitVec.toNat_ushiftRight, Nat.shiftLeft_eq,
    Nat.shiftRight_eq_div_pow, hlow, Nat.shiftLeft_add_eq_or_of_lt htop]

/-- Bit `i` moves to bit `i + n` modulo 32. -/
theorem rol_getLsbD (v : Word) {n i : Nat} (hn : n < 32) (hi : i < 32) :
    (rol v n).getLsbD ((i + n) % 32) = v.getLsbD i := by
  rw [rol_eq_rotateLeft v hn, BitVec.getLsbD_rotateLeft, Nat.mod_eq_of_lt hn]
  rcases Nat.lt_or_ge (i + n) 32 with hstay | hwrap
  · rw [Nat.mod_eq_of_lt hstay, decide_eq_false (by omega), decide_eq_true hstay, Nat.add_sub_cancel]
    rfl
  · have hmod : (i + n) % 32 = i + n - 32 := by omega
    rw [hmod, decide_eq_true (by omega), show 32 - n + (i + n - 32) = i by omega]
    rfl

/-! ### One step: the target register and the other three (43_transform.md R151) -/

theorem transformStep_getElem (x : Schedule) (wk : Quad) (t : Fin 48) (j : Fin 4) :
    (transformStep x wk t)[j] = if j = targetOf t then stepValue x t wk else wk[j] := by
  simp only [transformStep, Fin.getElem_fin, Vector.getElem_set, Fin.ext_iff, eq_comm]

@[simp] theorem transformStep_target (x : Schedule) (wk : Quad) (t : Fin 48) :
    (transformStep x wk t)[targetOf t] = stepValue x t wk :=
  (transformStep_getElem x wk t _).trans (if_pos rfl)

theorem transformStep_other (x : Schedule) (wk : Quad) {t : Fin 48} {j : Fin 4} (h : j ≠ targetOf t) :
    (transformStep x wk t)[j] = wk[j] :=
  (transformStep_getElem x wk t j).trans (if_neg h)

/-- Settles O42: the step writes at its target, and the rotation in numbers and in bits. -/
theorem transformStepWritesOnlyItsTarget : Obligations.TransformStepWritesOnlyItsTarget := by
  unfold Obligations.TransformStepWritesOnlyItsTarget
  refine ⟨fun x wk t j => ?_,
    fun v n _ hn => ⟨rol_toNat v (by omega), fun i hi => rol_getLsbD v (by omega) hi⟩⟩
  by_cases htarget : j = targetOf t
  · subst htarget
    rw [transformStep_target]
    exact (if_pos rfl).symm
  · exact (transformStep_other x wk htarget).trans (if_neg fun hval => htarget (Fin.ext hval)).symm

/-! ### Two formulations of the 48 steps (43_transform.md R151) -/

/-- The four registers under their role names, role `a` being register `j` and the others following it cyclically. -/
def byRole (j : Fin 4) (wk : Quad) : Quad := #v[wk[j], wk[j + 1], wk[j + 2], wk[j + 3]]

theorem byRole_zero (wk : Quad) : byRole 0 wk = wk := by
  ext k hk
  interval_cases k <;> rfl

/-- With role `a` passed to the register before `j`, role `b` is register `j`: the renaming
`(a, b, c, d) <- (d, a, b, c)`. -/
theorem byRole_add_three (j : Fin 4) (wk : Quad) :
    byRole (j + 3) wk = #v[wk[j + 3], wk[j], wk[j + 1], wk[j + 2]] := by
  have hb : j + 3 + 1 = j := by omega
  have hc : j + 3 + 2 = j + 1 := by omega
  have hd : j + 3 + 3 = j + 2 := by omega
  simp only [byRole, hb, hc, hd]

/-- The target of step `n`, also for `n = 48`, where no step follows. -/
def targetAt (n : Nat) : Fin 4 := ⟨(4 - n % 4) % 4, by omega⟩

/-- The target cycle `a, d, c, b` goes one register back at each step. -/
theorem targetAt_succ (t : Fin 48) : targetAt (t.val + 1) = targetOf t + 3 := by
  simp only [targetAt, targetOf, Fin.ext_iff, Fin.val_add]
  omega

/-- A step on the role names is the step on the registers, seen from the next target. -/
theorem roleStep_byRole (x : Schedule) (wk : Quad) (t : Fin 48) :
    roleStep x (byRole (targetOf t) wk) t = byRole (targetAt (t.val + 1)) (transformStep x wk t) := by
  rw [targetAt_succ, byRole_add_three, transformStep_target, transformStep_other x wk (by omega),
    transformStep_other x wk (by omega), transformStep_other x wk (by omega)]
  rfl

/-- After the first `n` steps the roles hold what the registers hold, seen from the next target. -/
theorem foldl_roleStep_take (x : Schedule) (wk : Quad) {n : Nat} (hn : n ≤ 48) :
    ((List.finRange 48).take n).foldl (roleStep x) wk =
      byRole (targetAt n) (((List.finRange 48).take n).foldl (transformStep x) wk) := by
  induction n with
  | zero => exact (byRole_zero wk).symm
  | succ n ih =>
    have htake : (List.finRange 48).take (n + 1) = (List.finRange 48).take n ++ [⟨n, hn⟩] := by
      rw [List.take_succ_eq_append_getElem (by rw [List.length_finRange]; exact hn), List.getElem_finRange]
      rfl
    rw [htake, List.foldl_concat, List.foldl_concat, ih (by omega)]
    exact roleStep_byRole x _ ⟨n, hn⟩

/-- Settles O43: after 48 steps role `a` is register 0 again, so the renaming is undone. -/
theorem roleRenamingGivesTheSameTransform : Obligations.RoleRenamingGivesTheSameTransform := by
  unfold Obligations.RoleRenamingGivesTheSameTransform
  intro x wk
  have hall := foldl_roleStep_take x wk (n := 48) le_rfl
  rw [List.take_of_length_le (by rw [List.length_finRange])] at hall
  exact hall.trans (byRole_zero _)

/-! ### XFORM (43_transform.md R140, R152 to R154) -/

theorem feedForward_getElem (acc wk : Quad) (i : Fin 4) : (feedForward acc wk)[i] = acc[i] + wk[i] := by
  simp [feedForward]

/-- The transform consumes the block, so a second one is rejected (R153, 60_exceptions.md R235). -/
theorem exec_xform_transformed_rejectedWith {s : State} (hactive : s.phase = .active) (v : Word) :
    RejectedWith .incomplete (s.transform.respond v) (exec .xform (s.transform.respond v)) :=
  (exec_xform_incomplete (s := s.transform.respond v) hactive rfl).trans (reject_rejectedWith .incomplete _)

/-- The sixteen steps of a round, in their order (R147). -/
def stepsOfRound (r : Round) : List (Fin 48) := (List.finRange 48).filter fun t => roundOf t = r

theorem transformSteps_eq_rounds (x : Schedule) (wk : Quad) :
    transformSteps x wk = (stepsOfRound .three).foldl (transformStep x)
      ((stepsOfRound .two).foldl (transformStep x) ((stepsOfRound .one).foldl (transformStep x) wk)) := by
  have horder : List.finRange 48 = stepsOfRound .one ++ stepsOfRound .two ++ stepsOfRound .three := by decide
  rw [transformSteps, horder, List.foldl_append, List.foldl_append]

/-- Vector T1: MD4T of the initial constants and the padded empty message, round by round. -/
theorem md4t_paddedEmpty : md4t iv (blockOfBytes [0x80]) = #v[0xE0CFD631, 0x31E96AD1, 0xD7593CB7, 0xC089C0E0] := by
  have hone : (stepsOfRound .one).foldl (transformStep (messageWords (blockOfBytes [0x80]))) iv =
      #v[0xADDCB303, 0x3665F296, 0x8EE8F245, 0xA483A664] := by decide
  have htwo : (stepsOfRound .two).foldl (transformStep (messageWords (blockOfBytes [0x80])))
      #v[0xADDCB303, 0x3665F296, 0x8EE8F245, 0xA483A664] =
      #v[0x374891BF, 0x6F952B2E, 0xB49A4DAE, 0x0A15C329] := by decide
  have hthree : (stepsOfRound .three).foldl (transformStep (messageWords (blockOfBytes [0x80])))
      #v[0x374891BF, 0x6F952B2E, 0xB49A4DAE, 0x0A15C329] =
      #v[0x798AB330, 0x421BBF48, 0x3E9E5FB9, 0xB0576C6A] := by decide
  rw [md4t, transformSteps_eq_rounds, hone, htwo, hthree]
  decide

/-- Settles O44: the guards of XFORM in their order, `State.transform` where they pass, and vector T1. -/
theorem xformTransformsAndConsumesTheBlock : Obligations.XformTransformsAndConsumesTheBlock := by
  unfold Obligations.XformTransformsAndConsumesTheBlock
  refine ⟨decode_of_row .xform 0 0 ⟨rfl, rfl⟩,
    fun idx data hset => (decode_opcodeOf_eq_illegal_iff .xform idx data).mpr (not_and_or.mpr hset),
    fun s hidle => exec_idle_rejectedWith rfl rfl hidle, fun s hactive hpart => ?_, fun s hactive hfull => ?_,
    md4t_paddedEmpty⟩
  · have hnot : s.full = false := Bool.eq_false_of_not_eq_true (mt s.full_iff.mp hpart)
    exact (exec_xform_incomplete hactive hnot).trans (reject_rejectedWith .incomplete s)
  · exact ⟨_, exec_xform_active hactive (s.full_iff.mpr hfull), rfl, fun i => feedForward_getElem s.acc _ i,
      exec_xform_transformed_rejectedWith hactive 0⟩

end Sys2Proof.Machine

namespace Sys2Proof.Machine

/-! ### Commands with an index limit: their decoding and their two guards (30_encoding.md R75, 60_exceptions.md R237) -/

/-- The commands `cmd k`, for every index operand `k`, have the limit `bound` and need ACTIVE. -/
structure IndexLimit (cmd : BitVec 8 → Instr) (bound : Nat) : Prop where
  wellFormed : ∀ k, (cmd k).wellFormed = decide (k.toNat < bound)
  needsActive : ∀ k, anyPhase (cmd k) = false

namespace IndexLimit

theorem rdacc : IndexLimit .rdacc 4 := ⟨fun _ => rfl, fun _ => rfl⟩
theorem rddg : IndexLimit .rddg 16 := ⟨fun _ => rfl, fun _ => rfl⟩
theorem rdcnt : IndexLimit .rdcnt 2 := ⟨fun _ => rfl, fun _ => rfl⟩
theorem wracc (v : Word) : IndexLimit (.wracc · v) 4 := ⟨fun _ => rfl, fun _ => rfl⟩
theorem wrcnt (v : Word) : IndexLimit (.wrcnt · v) 2 := ⟨fun _ => rfl, fun _ => rfl⟩

variable {cmd : BitVec 8 → Instr} {bound : Nat} (h : IndexLimit cmd bound) {k : BitVec 8}
include h

theorem wellFormed_of_lt (hin : k.toNat < bound) : (cmd k).wellFormed = true :=
  (h.wellFormed k).trans (decide_eq_true hin)

theorem not_wellFormed_of_ge (hout : bound ≤ k.toNat) : (cmd k).wellFormed = false :=
  (h.wellFormed k).trans (decide_eq_false (Nat.not_lt.mpr hout))

theorem decode_of_lt (hin : k.toNat < bound) : decode (encode (cmd k)) = .command (cmd k) :=
  decode_encode_of_wellFormed (h.wellFormed_of_lt hin)

theorem decode_of_ge (hout : bound ≤ k.toNat) : decode (encode (cmd k)) = .outOfBounds :=
  decode_encode_of_not_wellFormed (h.not_wellFormed_of_ge hout)

/-- The index is checked first, in either phase (60_exceptions.md R233). -/
theorem rejected_of_ge (hout : bound ≤ k.toNat) (s : State) : RejectedWith .bounds s (exec (cmd k) s) :=
  exec_outOfBounds_rejectedWith (h.not_wellFormed_of_ge hout) s

/-- The phase is checked next (60_exceptions.md R234). -/
theorem rejected_of_idle (hin : k.toNat < bound) {s : State} (hidle : s.phase = .idle) :
    RejectedWith .state s (exec (cmd k) s) :=
  exec_idle_rejectedWith (h.wellFormed_of_lt hin) (h.needsActive k) hidle

end IndexLimit

/-! ### The read-out and context commands performed in ACTIVE (44_readout_context.md R180 to R184) -/

theorem exec_rdacc_active {s : State} (hactive : s.phase = .active) {i : BitVec 8} (hi : i.toNat < 4) :
    exec (.rdacc i) s = .next (s.respond (s.acc[i.toNat]'hi)) := by
  simp [exec, execRdacc, indexIn_of_lt hi, State.ifActive_active hactive]

theorem exec_rddg_active {s : State} (hactive : s.phase = .active) {k : BitVec 8} (hk : k.toNat < 16) :
    exec (.rddg k) s = .next (s.respond ((digestByte s.acc ⟨k.toNat, hk⟩).setWidth 32)) := by
  simpa using exec_rddg_at hactive ⟨k.toNat, hk⟩

theorem exec_rdcnt_active {s : State} (hactive : s.phase = .active) {i : BitVec 8} (hi : i.toNat < 2) :
    exec (.rdcnt i) s = .next (s.respond (s.cnt[i.toNat]'hi)) := by
  simpa using exec_rdcnt_at hactive ⟨i.toNat, hi⟩

theorem exec_wracc_active {s : State} (hactive : s.phase = .active) {i : BitVec 8} (hi : i.toNat < 4) (v : Word) :
    exec (.wracc i v) s = .next ((s.setAcc ⟨i.toNat, hi⟩ v).respond 0) := by
  simp [exec, execWracc, indexIn_of_lt hi, State.ifActive_active hactive]

theorem exec_wrcnt_active {s : State} (hactive : s.phase = .active) {i : BitVec 8} (hi : i.toNat < 2) (v : Word) :
    exec (.wrcnt i v) s = .next ((s.setCnt ⟨i.toNat, hi⟩ v).respond 0) := by
  simp [exec, execWrcnt, indexIn_of_lt hi, State.ifActive_active hactive]

/-- The state that a performed command leaves: its change of the core, and its answer. -/
def State.performed (s : State) (i : Instr) : State := (effect i s).respond (answerData i s)

/-- Well-formed commands other than SCRUB and XFORM are all performed in ACTIVE, each on the state that the one before it
left (45_host_sequences.md R200). -/
theorem issueAll_active (is : List Instr) (hall : ∀ i ∈ is, i.wellFormed = true ∧ i ≠ .scrub ∧ i ≠ .xform) {s : State}
    (hactive : s.phase = .active) : issueAll is s = .next (is.foldl State.performed s) := by
  induction is generalizing s with
  | nil => rfl
  | cons i is ih =>
    obtain ⟨⟨hwell, hscrub, hxform⟩, hrest⟩ := List.forall_mem_cons.mp hall
    have hstays : (s.performed i).phase = .active := by
      rw [State.performed, State.respond_phase, effect_phase, if_neg hscrub, hactive, ite_self]
    rw [issueAll_cons, exec_active hwell hactive fun h => absurd h hxform, andThen_next]
    exact ih hrest hstays

/-! ### Reading a word of the accumulator or of the counter (R180, R182) -/

/-- Settles O45: the guards of a command with the limit 4, the word of the accumulator, and word 1 of a fresh digest. -/
theorem readAccumulatorAnswersTheWord : Obligations.ReadAccumulatorAnswersTheWord := by
  unfold Obligations.ReadAccumulatorAnswersTheWord
  exact ⟨fun _ => IndexLimit.rdacc.decode_of_lt,
    fun i data hset => (decode_opcodeOf_eq_illegal_iff .rdacc i data).mpr hset,
    fun _ s hout => IndexLimit.rdacc.rejected_of_ge hout s,
    fun _ _ hin hidle => IndexLimit.rdacc.rejected_of_idle hin hidle,
    fun _ _ hin hactive => exec_rdacc_active hactive hin,
    fun _ => ⟨_, rfl, rfl⟩⟩

/-- Settles O47: the guards of a command with the limit 2, the word of the counter, and the two words after COUNT 3. -/
theorem readCounterAnswersTheWord : Obligations.ReadCounterAnswersTheWord := by
  unfold Obligations.ReadCounterAnswersTheWord
  refine ⟨fun _ => IndexLimit.rdcnt.decode_of_lt,
    fun i data hset => (decode_opcodeOf_eq_illegal_iff .rdcnt i data).mpr hset,
    fun _ s hout => IndexLimit.rdcnt.rejected_of_ge hout s,
    fun _ _ hin hidle => IndexLimit.rdcnt.rejected_of_idle hin hidle,
    fun _ _ hin hactive => exec_rdcnt_active hactive hin,
    fun _ => ⟨_, rfl, ?_⟩⟩
  show [rspWord 0 (countHigh 0 0 3), rspWord 0 (countLow 0 3)] = _
  decide

/-! ### Reading a digest byte (R181, R185) -/

theorem byteOf_toNat (w : Word) (q : Fin 4) : (byteOf w q).toNat = w.toNat / 2 ^ (8 * q.val) % 2 ^ 8 := by
  rw [byteOf, BitVec.extractLsb'_toNat, Nat.shiftRight_eq_div_pow]

/-- Settles O46: the guards of a command with the limit 16, the digest byte zero-extended, and the four bytes of word 0. -/
theorem readDigestAnswersTheByte : Obligations.ReadDigestAnswersTheByte := by
  unfold Obligations.ReadDigestAnswersTheByte
  refine ⟨fun _ => IndexLimit.rddg.decode_of_lt,
    fun k data hset => (decode_opcodeOf_eq_illegal_iff .rddg k data).mpr hset,
    fun _ s hout => IndexLimit.rddg.rejected_of_ge hout s,
    fun _ _ hin hidle => IndexLimit.rddg.rejected_of_idle hin hidle,
    fun k s hin hactive => ⟨_, exec_rddg_active hactive hin, ?_⟩, fun s hactive hword => ?_⟩
  · exact (BitVec.toNat_setWidth_of_le (by decide)).trans (byteOf_toNat _ _)
  · refine ⟨_, issueAll_active _ (by decide) hactive, ?_⟩
    show [rspWord 0 ((byteOf s.acc[0] 3).setWidth 32), rspWord 0 ((byteOf s.acc[0] 2).setWidth 32),
      rspWord 0 ((byteOf s.acc[0] 1).setWidth 32), rspWord 0 ((byteOf s.acc[0] 0).setWidth 32)] ++ s.rsps = _
    rw [hword, List.append_left_inj]
    decide

/-- A word is the number that its four bytes spell, the least significant first. -/
theorem word_toNat_eq_bytes (w : Word) :
    w.toNat = (byteOf w 0).toNat + (byteOf w 1).toNat * 2 ^ 8 + (byteOf w 2).toNat * 2 ^ 16 +
      (byteOf w 3).toNat * 2 ^ 24 := by
  rw [← wordOfBytes_toNat]
  exact congrArg BitVec.toNat (word_ext_byteOf (byteOf_wordOfBytes (byteOf w))).symm

/-- The four bytes of a word, weighted from `256 ^ n` upward. -/
theorem sum_byteOf_mul_pow (w : Word) (n : Nat) :
    ∑ q : Fin 4, (byteOf w q).toNat * 256 ^ (q.val + n) = w.toNat * 256 ^ n := by
  rw [word_toNat_eq_bytes w, Fin.sum_univ_four]
  simp only [pow_add, Fin.coe_ofNat_eq_mod, Nat.reduceMod]
  ring

/-- Digest byte `q + 4j` is byte `q` of word `j` (R181). -/
theorem digestByte_finProd (acc : Quad) (j q : Fin 4) :
    digestByte acc (finProdFinEquiv (j, q)) = byteOf acc[j] q := by
  have hword : digestWord (finProdFinEquiv (j, q)) = j := by
    ext
    simp only [digestWord, finProdFinEquiv_apply_val]
    omega
  have hbyte : digestByteInWord (finProdFinEquiv (j, q)) = q := by
    ext
    simp only [digestByteInWord, finProdFinEquiv_apply_val]
    omega
  simp only [digestByte, hword, hbyte]

/-- The sixteen digest bytes as one number, word by word (R185). -/
theorem sum_digestByte_mul_pow (acc : Quad) :
    ∑ k : Fin 16, (digestByte acc k).toNat * 256 ^ k.val = ∑ j : Fin 4, acc[j].toNat * 256 ^ (4 * j.val) := by
  calc ∑ k : Fin (4 * 4), (digestByte acc k).toNat * 256 ^ k.val
      = ∑ j : Fin 4, ∑ q : Fin 4, (digestByte acc (finProdFinEquiv (j, q))).toNat * 256 ^ (q.val + 4 * j.val) := by
        rw [← finProdFinEquiv.sum_comp, Fintype.sum_prod_type]
        rfl
    _ = ∑ j : Fin 4, acc[j].toNat * 256 ^ (4 * j.val) := by
        simp only [digestByte_finProd, sum_byteOf_mul_pow]

/-- Settles O48: the bytes grouped by words, and RDDG's answer as one of `digestOf`. -/
theorem digestBytesSpellTheAccumulator : Obligations.DigestBytesSpellTheAccumulator := by
  unfold Obligations.DigestBytesSpellTheAccumulator
  refine ⟨fun acc => ?_, fun k s hactive => ⟨_, exec_rddg_at hactive k, ?_, ?_⟩⟩
  · rw [← Fin.sum_univ_def, sum_digestByte_mul_pow, Fin.sum_univ_four]
    norm_num
  · rw [lastData_respond]
    simp [digestOf]
  · simp [digestOf]

/-! ### Writing a word of the accumulator or of the counter (R183, R184) -/

theorem set_getElem_fin {n : Nat} (a : Vector Word n) (i k : Fin n) (v : Word) :
    (a.set i.val v)[k] = if k.val = i.val then v else a[k] := by
  simp only [Fin.getElem_fin, Vector.getElem_set, eq_comm]

/-- Settles O49: the guards of a command with the limit 4, and one word of the accumulator set. -/
theorem writeAccumulatorWritesTheWord : Obligations.WriteAccumulatorWritesTheWord := by
  unfold Obligations.WriteAccumulatorWritesTheWord
  exact ⟨fun _ v hin => (IndexLimit.wracc v).decode_of_lt hin,
    fun _ v hout => (IndexLimit.wracc v).decode_of_ge hout,
    fun _ v s hout => (IndexLimit.wracc v).rejected_of_ge hout s,
    fun _ v _ hin hidle => (IndexLimit.wracc v).rejected_of_idle hin hidle,
    fun _ v s hin hactive => ⟨_, exec_wracc_active hactive hin v, fun k => set_getElem_fin s.acc ⟨_, hin⟩ k v⟩⟩

/-- Settles O50: the guards of a command with the limit 2, one word of the counter set, and COUNT's three low bits, which
O33 keeps. -/
theorem writeCounterWritesTheWord : Obligations.WriteCounterWritesTheWord := by
  unfold Obligations.WriteCounterWritesTheWord
  refine ⟨fun _ v hin => (IndexLimit.wrcnt v).decode_of_lt hin,
    fun _ v hout => (IndexLimit.wrcnt v).decode_of_ge hout,
    fun _ v s hout => (IndexLimit.wrcnt v).rejected_of_ge hout s,
    fun _ v _ hin hidle => (IndexLimit.wrcnt v).rejected_of_idle hin hidle,
    fun _ v s hin hactive => ⟨_, exec_wrcnt_active hactive hin v, fun k => set_getElem_fin s.cnt ⟨_, hin⟩ k v⟩,
    fun v s hactive => ?_, fun len s hactive => ?_, fun s => ⟨_, rfl, ?_⟩⟩
  · have hlow : ((s.setCnt 0 v).respond 0).cnt[0] = v := set_getElem_fin s.cnt 0 0 v
    exact ⟨_, exec_wrcnt_active hactive (by decide) v, congrArg _ hlow, congrArg _ hlow⟩
  · obtain ⟨t, hnext, _, hbits⟩ := countMovesTheIndexByTheLength len s hactive
    exact ⟨t, hnext, hbits⟩
  · show #v[countLow 0xFFFFFFF8 1, countHigh 0xFFFFFFF8 0 1] = #v[0, 1]
    decide

/-! ### Restoring a saved context (R183, R184, 70_reset_and_hazards.md R264) -/

theorem set_each_acc (a b : Quad) : (((a.set 0 b[0]).set 1 b[1]).set 2 b[2]).set 3 b[3] = b := by
  ext k hk
  interval_cases k <;> simp

theorem set_each_cnt (a b : Vector Word 2) : (a.set 0 b[0]).set 1 b[1] = b := by
  ext k hk
  interval_cases k <;> simp

/-- Settles O51: the six writes are all performed, and each word is set once. -/
theorem contextWritesRestoreASavedState : Obligations.ContextWritesRestoreASavedState := by
  unfold Obligations.ContextWritesRestoreASavedState
  intro s saved hactive
  exact ⟨_, issueAll_active _ (by simp [Instr.wellFormed]) hactive, set_each_acc s.acc saved.acc,
    set_each_cnt s.cnt saved.cnt, rfl, rfl, rfl, rfl⟩

end Sys2Proof.Machine

namespace Sys2Proof.Machine

/-! ### Runs without an error (45_host_sequences.md R201, 70_reset_and_hazards.md R270) -/

/-- Every response that the run from `s` to `t` has added is OK, and ERR is as it was. -/
def AllOk (s t : State) : Prop :=
  t.err = s.err ∧ ∃ given : List RspWord, t.rsps = given ++ s.rsps ∧ ∀ r ∈ given, rspStatus r = 0

theorem AllOk.refl (s : State) : AllOk s s := ⟨rfl, [], rfl, by simp⟩

theorem AllOk.trans {s t u : State} (hst : AllOk s t) (htu : AllOk t u) : AllOk s u := by
  obtain ⟨herr, given, hgiven, hok⟩ := hst
  obtain ⟨herr', given', hgiven', hok'⟩ := htu
  exact ⟨herr'.trans herr, given' ++ given, by rw [hgiven', hgiven, List.append_assoc],
    List.forall_mem_append.mpr ⟨hok', hok⟩⟩

/-- A command that leaves ERR and answers OK is such a run. -/
theorem AllOk.respond {s t : State} (herr : t.err = s.err) (hrsps : t.rsps = s.rsps) (v : Word) :
    AllOk s (t.respond v) :=
  ⟨herr, [rspWord 0 v], by rw [State.respond_rsps, hrsps, List.singleton_append], by simp⟩

theorem AllOk.goodRun {s t : State} (h : AllOk s t) (hzero : s.err = 0) : GoodRun s t :=
  ⟨h.1.trans hzero, h.2⟩

/-! ### The counter as one number (10_state.md R24) -/

theorem State.bitCount_of_cnt {s t : State} (h : t.cnt = s.cnt) : t.bitCount = s.bitCount := by
  rw [State.bitCount, State.bitCount, h]

/-- INDEX is the number of whole bytes counted, modulo 64. -/
theorem State.index_eq_bitCount (s : State) : s.index.toNat = s.bitCount / 8 % 64 := by
  rw [State.index_toNat, State.bitCount]
  omega

/-- The number determines both words of the counter. -/
theorem State.cnt_of_bitCount {s t : State} (h : t.bitCount = s.bitCount) : t.cnt = s.cnt := by
  have hslow := s.cnt[0].isLt
  have htlow := t.cnt[0].isLt
  simp only [State.bitCount] at h
  ext k hk : 1
  apply BitVec.eq_of_toNat_eq
  interval_cases k <;> omega

/-! ### UPDATE's commands after RDSTAT and COUNT, and its end state (R201) -/

/-- The state in which the loads of an UPDATE of `n` bytes start: the status read, and the length counted. -/
def State.counted (s : State) (n : Nat) : State := ((s.respond s.status).advance (BitVec.ofNat 32 n)).respond 0

theorem State.counted_bitCount (s : State) {n : Nat} (hn : n < 2 ^ 32) :
    (s.counted n).bitCount = (s.bitCount + 8 * n) % 2 ^ 64 := by
  have h := (s.respond s.status).advance_bitCount (BitVec.ofNat 32 n)
  rwa [BitVec.toNat_ofNat, Nat.mod_eq_of_lt hn] at h

theorem State.counted_zero (s : State) : s.counted 0 = (s.respond s.status).respond 0 :=
  congrArg (State.respond · 0) (s.respond s.status).advance_zero

theorem State.counted_allOk (s : State) (n : Nat) : AllOk s (s.counted n) :=
  (AllOk.respond rfl rfl s.status).trans (AllOk.respond rfl rfl 0)

theorem runUpdate_eq_feed (m : List Byte) {s : State} (hactive : s.phase = .active) :
    runUpdate m s = issueAll (feedCommands s.index.toNat m) (s.counted m.length) :=
  runUpdate_active m hactive

/-- UPDATE in ACTIVE from a block that holds the first INDEX bytes: every command is performed, and the block holds the
first INDEX bytes again. -/
theorem runUpdate_end (m : List Byte) {s : State} (hlen : m.length < 2 ^ 32) (hactive : s.phase = .active)
    (hfilled : s.PrefixFilled) :
    ∃ t, runUpdate m s = .next t ∧ t.phase = .active ∧ t.PrefixFilled ∧
      t.bitCount = (s.bitCount + 8 * m.length) % 2 ^ 64 ∧ t.index.toNat = (s.index.toNat + m.length) % 64 ∧
      AllOk s t := by
  obtain ⟨t, hrun, hphase, hcnt, herr, _, hfill, hrsps⟩ :=
    issueAll_feed m s.index.isLt (s := s.counted m.length) hactive hfilled
  have hcount := (State.bitCount_of_cnt hcnt).trans (s.counted_bitCount hlen)
  have hindex : t.index.toNat = (s.index.toNat + m.length) % 64 := by
    rw [State.index_eq_bitCount, State.index_eq_bitCount, hcount]
    omega
  have hok : AllOk (s.counted m.length) t :=
    ⟨herr, _, hrsps, fun r hr => by rw [List.eq_of_mem_replicate hr, rspStatus_rspWord]⟩
  refine ⟨t, (runUpdate_eq_feed m hactive).trans hrun, hphase, ?_, hcount, hindex, (s.counted_allOk _).trans hok⟩
  rwa [State.PrefixFilled, hindex]

theorem updateCommands_count_xform {index : Nat} (hindex : index < 64) (m : List Byte) :
    (updateCommands index m).count .xform = (index + m.length) / 64 := by
  rw [updateCommands, List.count_cons_of_ne (by simp), feedCommands_count_xform hindex]

/-- Settles O52: the end state of the loads and transforms, and one transform for each block completed. -/
theorem updateEndsInTheStatedState : Obligations.UpdateEndsInTheStatedState := by
  unfold Obligations.UpdateEndsInTheStatedState
  intro m s hlen hactive hfilled
  obtain ⟨t, hrun, hphase, hfill, hcount, hindex, herr, hgiven⟩ := runUpdate_end m hlen hactive hfilled
  exact ⟨t, hrun, hcount, hindex, hfill, hphase, herr, updateCommands_count_xform s.index.isLt m, runUpdate_eq m s,
    hgiven⟩

/-- Settles O54: no byte gives no load, and COUNT 0 and RDSTAT only answer. -/
theorem emptyUpdateChangesNothing : Obligations.EmptyUpdateChangesNothing := by
  unfold Obligations.EmptyUpdateChangesNothing
  refine ⟨fun index hindex => ?_, fun s hactive => ⟨s.counted 0, ?_, ?_⟩⟩
  · rw [updateCommands, feedCommands_nil hindex]
    rfl
  · rw [runUpdate_eq_feed [] hactive, feedCommands_nil s.index.isLt]
    rfl
  · rw [State.counted_zero]
    exact ⟨rfl, rfl, rfl, rfl, rfl, rfl⟩

/-! ### Chunk invariance (R205) -/

theorem SameCore.symm {s t : State} (h : SameCore s t) : SameCore t s := by
  obtain ⟨hacc, hcnt, hblk, hblkv, hphase, herr⟩ := h
  exact ⟨hacc.symm, hcnt.symm, hblk.symm, hblkv.symm, hphase.symm, herr.symm⟩

theorem SameCore.trans {s t u : State} (hst : SameCore s t) (htu : SameCore t u) : SameCore s u := by
  obtain ⟨hacc, hcnt, hblk, hblkv, hphase, herr⟩ := hst
  obtain ⟨hacc', hcnt', hblk', hblkv', hphase', herr'⟩ := htu
  exact ⟨hacc'.trans hacc, hcnt'.trans hcnt, hblk'.trans hblk, hblkv'.trans hblkv, hphase'.trans hphase,
    herr'.trans herr⟩

/-- States that agree off the counter, and count the same number of bits, hold the same core. -/
theorem AgreeOffCounter.sameCore {s t : State} (h : AgreeOffCounter s t) (hcount : t.bitCount = s.bitCount) :
    SameCore s t := by
  obtain ⟨hacc, hblk, hblkv, hphase, herr⟩ := h
  exact ⟨hacc, State.cnt_of_bitCount hcount, hblk, hblkv, hphase, herr⟩

/-- One UPDATE of two strings in a row leaves the core of the two UPDATEs: the loads and transforms are the same, only
the COUNTs stand elsewhere among them, and the counts add up (R202). -/
theorem runUpdate_append_sameCore (p q : List Byte) {s : State} (hlen : (p ++ q).length < 2 ^ 32)
    (hactive : s.phase = .active) (hfilled : s.PrefixFilled) :
    ∃ s1 t u, runUpdate p s = .next s1 ∧ s1.phase = .active ∧ s1.PrefixFilled ∧ runUpdate q s1 = .next t ∧
      runUpdate (p ++ q) s = .next u ∧ SameCore u t := by
  have hsum : (p ++ q).length = p.length + q.length := List.length_append
  obtain ⟨s1, hp, hactive1, hfilled1, hcount1, hindex1, _⟩ :=
    runUpdate_end p (by omega) hactive hfilled
  obtain ⟨t, hq, _, _, hcount2, _⟩ := runUpdate_end q (by omega) hactive1 hfilled1
  obtain ⟨u, hpq, _, _, hcount, _⟩ := runUpdate_end (p ++ q) hlen hactive hfilled
  refine ⟨s1, t, u, hp, hactive1, hfilled1, hq, hpq, AgreeOffCounter.sameCore ?_ ?_⟩
  · obtain ⟨u1, s1', hu1, hs1', hagree⟩ := issueAll_feed_agree p s.index.isLt (s := s.counted (p ++ q).length)
      (s' := s.counted p.length) hactive hfilled ⟨rfl, rfl, rfl, rfl, rfl⟩
    cases hs1'.symm.trans ((runUpdate_eq_feed p hactive).symm.trans hp)
    obtain ⟨hacc, hblk, hblkv, hphase, herr⟩ := hagree
    have hactive2 : u1.phase = .active := hphase.symm.trans hactive1
    have hfilled2 : u1.FilledTo s1.index.toNat := fun k => by rw [← hblkv]; exact hfilled1 k
    obtain ⟨u', t', hu', ht', hagree'⟩ := issueAll_feed_agree q s1.index.isLt (s := u1) (s' := s1.counted q.length)
      hactive2 hfilled2 ⟨hacc, hblk, hblkv, hphase, herr⟩
    cases ht'.symm.trans ((runUpdate_eq_feed q hactive1).symm.trans hq)
    rw [runUpdate_eq_feed _ hactive, feedCommands_append s.index.isLt, ← hindex1, issueAll_append, hu1, andThen_next,
      hu'] at hpq
    cases hpq
    exact hagree'
  · rw [hcount2, hcount1, hcount, hsum]
    omega

/-- Settles O53, by induction on the list of pieces: the first piece is split off the join. -/
theorem updateIsChunkInvariant : Obligations.UpdateIsChunkInvariant := by
  unfold Obligations.UpdateIsChunkInvariant
  intro pieces
  induction pieces with
  | nil =>
    intro s _ hactive _
    obtain ⟨u, hrun, hsame⟩ := emptyUpdateChangesNothing.2 s hactive
    exact ⟨s, u, rfl, hrun, hsame.symm⟩
  | cons p rest ih =>
    intro s hlen hactive hfilled
    obtain ⟨s1, t, u, hp, hactive1, hfilled1, hq, hpq, hsame⟩ :=
      runUpdate_append_sameCore p rest.flatten hlen hactive hfilled
    have hrest : rest.flatten.length < 2 ^ 32 := by
      rw [List.flatten_cons, List.length_append] at hlen
      omega
    obtain ⟨t', u', ht', hu', hsame'⟩ := ih s1 hrest hactive1 hfilled1
    cases hu'.symm.trans hq
    exact ⟨t', u, by rw [runUpdates, hp, andThen_next, ht'], hpq, hsame.trans hsame'⟩

/-! ### UPDATE in IDLE (R216) -/

/-- Every load and transform of UPDATE is well formed and needs ACTIVE. -/
theorem feedCommands_needActive {index : Nat} (hindex : index < 64) (m : List Byte) :
    ∀ i ∈ feedCommands index m, i.wellFormed = true ∧ anyPhase i = false := by
  induction m generalizing index with
  | nil => simp [feedCommands_nil hindex]
  | cons b m ih =>
    have hload : (Instr.ldb (BitVec.ofNat 8 index) b).wellFormed = true :=
      wellFormed_ldb (by rw [BitVec.toNat_ofNat]; omega) b
    rw [feedCommands_cons hindex]
    refine List.forall_mem_cons.mpr ⟨⟨hload, rfl⟩, ?_⟩
    split
    · exact List.forall_mem_cons.mpr ⟨⟨rfl, rfl⟩, ih (by omega)⟩
    · exact ih (by omega)

/-- Settles O60: RDSTAT answers, COUNT records ErrState, and with an error recorded the rest only answers. -/
theorem updateAfterFinalizeIsRejected : Obligations.UpdateAfterFinalizeIsRejected := by
  unfold Obligations.UpdateAfterFinalizeIsRejected
  refine ⟨fun m s hidle => ?_, fun s hidle => IndexLimit.rdcnt.rejected_of_idle (by decide) hidle⟩
  have hstat : exec .rdstat s = .next (s.respond s.status) := rfl
  have hcount := exec_idle (i := .count (BitVec.ofNat 32 m.length)) rfl rfl (s := s.respond s.status) hidle
  have hrest := issueAll_idle_of_recorded _ (feedCommands_needActive s.index.isLt m)
    (s := ((s.respond s.status).latch .state).answer ErrCode.state.status 0) hidle (State.latch_err_ne_zero _ .state)
  rw [runUpdate_eq, issueAll_cons, hstat, andThen_next, updateCommands, issueAll_cons, hcount, State.reject_eq,
    andThen_next, hrest]
  exact ⟨_, rfl, rfl, rfl, rfl, rfl, rfl, rfl⟩

end Sys2Proof.Machine

namespace Sys2Proof.Machine

/-! ### Padding and footer (R211, R212) -/

theorem padding_length {index : Nat} (hindex : index < 64) : (padding index).length = padLength index := by
  rw [padding, List.length_cons, List.length_replicate, padLength]
  split <;> omega

/-- Settles O55, in the two ranges of the index. -/
theorem paddingFillsToFiftySix : Obligations.PaddingFillsToFiftySix := by
  unfold Obligations.PaddingFillsToFiftySix
  intro index hindex
  rw [padding_length hindex, padLength]
  split <;> omega

/-- Settles O56: bytes 0 to 3 are those of the low word, which the high word does not reach, and bytes 4 to 7 those of
the high word. -/
theorem footerIsTheCounterLittleEndian : Obligations.FooterIsTheCounterLittleEndian := by
  unfold Obligations.FooterIsTheCounterLittleEndian
  intro s i hi
  have hlow := s.cnt[0].isLt
  simp only [footer, List.map_cons, byteOf_toNat, State.bitCount]
  interval_cases i <;> simp <;> omega

theorem footer_length (lo hi : Word) : (footer lo hi).length = 8 := rfl

theorem le64_length (n : Nat) : (le64 n).length = 8 := rfl

theorem le64_getElem (n : Nat) {i : Nat} (hi : i < (le64 n).length) :
    (le64 n)[i] = BitVec.ofNat 8 (n / 2 ^ (8 * i)) := by
  simp [le64]

/-- The footer of a counter that holds `n` modulo 2^64 is `LE64(n)` (R212, R215). -/
theorem footer_eq_le64 {s : State} {n : Nat} (h : s.bitCount = n % 2 ^ 64) : footer s.cnt[0] s.cnt[1] = le64 n := by
  refine List.ext_getElem rfl fun i hi _ => BitVec.eq_of_toNat_eq ?_
  have hi8 : i < 8 := hi
  have hbyte := footerIsTheCounterLittleEndian s i hi8
  rw [List.getElem?_map, List.getElem?_eq_getElem hi, Option.map_some, Option.some_inj, h] at hbyte
  rw [hbyte, le64_getElem, BitVec.toNat_ofNat]
  interval_cases i <;> omega

/-! ### The read-out and the last SCRUB (R210, R267) -/

/-- The responses to RDDG, newest first. -/
def digestResponses (acc : Quad) : List RspWord := ((digestOf acc).map fun b => rspWord 0 (b.setWidth 32)).reverse

/-- The state after the sixteen RDDG commands. -/
def State.digestRead (s : State) : State := { s with rsps := digestResponses s.acc ++ s.rsps }

/-- RDDG commands in ACTIVE only answer, each its digest byte. -/
theorem issueAll_rddg (ks : List (Fin 16)) {s : State} (hactive : s.phase = .active) :
    issueAll (ks.map fun k => .rddg (BitVec.ofNat 8 k.val)) s = .next { s with
      rsps := (ks.map fun k => rspWord 0 ((digestByte s.acc k).setWidth 32)).reverse ++ s.rsps } := by
  induction ks generalizing s with
  | nil => rfl
  | cons k ks ih =>
    rw [List.map_cons, issueAll_cons, exec_rddg_at hactive, andThen_next, ih (by simpa using hactive)]
    simp [State.respond, State.answer]

theorem issueAll_readDigest {s : State} (hactive : s.phase = .active) :
    issueAll readDigestCommands s = .next s.digestRead := by
  rw [readDigestCommands, issueAll_rddg _ hactive, State.digestRead, digestResponses, digestOf, List.map_map]
  rfl

theorem State.digestRead_allOk (s : State) : AllOk s s.digestRead := by
  refine ⟨rfl, _, rfl, fun r hr => ?_⟩
  obtain ⟨b, _, rfl⟩ := List.mem_map.mp (List.mem_reverse.mp hr)
  exact rspStatus_rspWord 0 _

/-- The host reads the digest of the accumulator from the last sixteen responses. -/
theorem lastSixteenBytes_digestRead (s : State) : lastSixteenBytes s.digestRead = digestOf s.acc := by
  have hlen : (digestResponses s.acc).length = 16 := by simp [digestResponses, digestOf]
  rw [lastSixteenBytes, State.digestRead, List.take_left' hlen, digestResponses, List.reverse_reverse, List.map_map]
  exact (List.map_congr_left fun b _ => by simp [byte_low8]).trans (List.map_id _)

/-- The state after FINALIZE's last command, where the host issues it. -/
def State.scrubbedIf (scrub : Bool) (s : State) : State := if scrub then s.erase.respond 0 else s

theorem issueAll_scrubCommands (scrub : Bool) (s : State) :
    issueAll (scrubCommands scrub) s = .next (s.scrubbedIf scrub) := by
  cases scrub <;> rfl

theorem State.scrubbedIf_allOk (scrub : Bool) (s : State) : AllOk s (s.scrubbedIf scrub) := by
  cases scrub
  · exact AllOk.refl s
  · exact AllOk.respond rfl rfl 0

/-! ### FINALIZE, part by part (R210, R213) -/

/-- The state after the two RDCNT commands in ACTIVE. -/
def State.counterRead (s : State) : State := (s.respond s.cnt[0]).respond s.cnt[1]

theorem State.counterRead_allOk (s : State) : AllOk s s.counterRead :=
  (AllOk.respond rfl rfl s.cnt[0]).trans (AllOk.respond rfl rfl s.cnt[1])

theorem exec_rdcnt_low {s : State} (hactive : s.phase = .active) : exec (.rdcnt 0) s = .next (s.respond s.cnt[0]) :=
  exec_rdcnt_at hactive 0

theorem exec_rdcnt_high {s : State} (hactive : s.phase = .active) : exec (.rdcnt 1) s = .next (s.respond s.cnt[1]) :=
  exec_rdcnt_at hactive 1

/-- FINALIZE in ACTIVE: the two RDCNT are performed, and the index and the footer are those of the counter. -/
theorem runFinalize_active (scrub : Bool) {s : State} (hactive : s.phase = .active) :
    runFinalize scrub s =
      andThen (runUpdate (padding s.index.toNat) s.counterRead) fun padded =>
      andThen (runUpdate (footer s.cnt[0] s.cnt[1]) padded) fun footed =>
      andThen (issueAll readDigestCommands footed) fun read =>
      andThen (issueAll (scrubCommands scrub) read) fun done => .next (done, lastSixteenBytes read) := by
  have hhigh := exec_rdcnt_high (s := s.respond s.cnt[0]) hactive
  simp only [runFinalize, exec_rdcnt_low hactive, hhigh, andThen_next, lastData_respond]
  rfl

section
variable {s padded footed : State} (hactive : s.phase = .active)
  (hpad : runUpdate (padding s.index.toNat) s.counterRead = .next padded)
  (hfoot : runUpdate (footer s.cnt[0] s.cnt[1]) padded = .next footed) (hdone : footed.phase = .active)
include hactive hpad hfoot hdone

/-- FINALIZE from its two UPDATEs: it ends with the digest read, and scrubbed or not, and hands back the digest. -/
theorem runFinalize_of_updates (scrub : Bool) :
    runFinalize scrub s = .next (footed.digestRead.scrubbedIf scrub, digestOf footed.acc) := by
  rw [runFinalize_active scrub hactive, hpad, andThen_next, hfoot, andThen_next, issueAll_readDigest hdone,
    andThen_next, issueAll_scrubCommands, andThen_next, lastSixteenBytes_digestRead]

/-- The commands of FINALIZE as one list leave the state that FINALIZE leaves, where the footer starts at INDEX 56. -/
theorem issueAll_finalizeCommands (hindex : padded.index.toNat = 56) (scrub : Bool) :
    issueAll (finalizeCommands scrub s.index.toNat s.cnt[0] s.cnt[1]) s =
      .next (footed.digestRead.scrubbedIf scrub) := by
  have hread : issueAll [.rdcnt 0, .rdcnt 1] s = .next s.counterRead := by
    have hhigh := exec_rdcnt_high (s := s.respond s.cnt[0]) hactive
    rw [issueAll_cons, exec_rdcnt_low hactive, andThen_next, issueAll_cons, hhigh]
    rfl
  have hpad' : issueAll (.rdstat :: updateCommands s.index.toNat (padding s.index.toNat)) s.counterRead =
      .next padded := (runUpdate_eq _ _).symm.trans hpad
  have hfoot' : issueAll (.rdstat :: updateCommands 56 (footer s.cnt[0] s.cnt[1])) padded = .next footed := by
    rw [← hindex, ← runUpdate_eq, hfoot]
  simp only [finalizeCommands, issueAll_append, hread, andThen_next, hpad', hfoot', issueAll_readDigest hdone,
    issueAll_scrubCommands]

end

/-- The two UPDATEs of FINALIZE complete; the footer's starts at INDEX 56. -/
theorem finalize_updates {s : State} (hactive : s.phase = .active) (hfilled : s.PrefixFilled) :
    ∃ padded footed, runUpdate (padding s.index.toNat) s.counterRead = .next padded ∧ padded.index.toNat = 56 ∧
      runUpdate (footer s.cnt[0] s.cnt[1]) padded = .next footed ∧ footed.phase = .active := by
  obtain ⟨_, _, _, hle, hmod, hlen⟩ := paddingFillsToFiftySix s.index.toNat s.index.isLt
  obtain ⟨padded, hpad, hactive', hfilled', _, hindex, _⟩ :=
    runUpdate_end (padding s.index.toNat) (s := s.counterRead) (by omega) hactive hfilled
  obtain ⟨footed, hfoot, hdone, _⟩ :=
    runUpdate_end (footer s.cnt[0] s.cnt[1]) (s := padded) (by simp [footer_length]) hactive' hfilled'
  exact ⟨padded, footed, hpad, hindex.trans (by rw [hlen]; exact hmod), hfoot, hdone⟩

/-! ### The transforms of FINALIZE (R213) -/

theorem padding_count_xform {index : Nat} (hindex : index < 64) :
    (updateCommands index (padding index)).count .xform = if index < 56 then 0 else 1 := by
  rw [updateCommands_count_xform hindex, padding_length hindex, padLength]
  split <;> omega

theorem footer_count_xform (lo hi : Word) : (updateCommands 56 (footer lo hi)).count .xform = 1 := by
  rw [updateCommands_count_xform (by decide), footer_length]

theorem finalizeCommands_count_xform (scrub : Bool) {index : Nat} (hindex : index < 64) (lo hi : Word) :
    (finalizeCommands scrub index lo hi).count .xform = if index < 56 then 1 else 2 := by
  have hrdcnt : [Instr.rdcnt 0, .rdcnt 1].count .xform = 0 := by decide
  have hrddg : readDigestCommands.count .xform = 0 := by decide
  have hscrub : (scrubCommands scrub).count .xform = 0 := by cases scrub <;> decide
  rw [finalizeCommands]
  simp only [List.count_append, hrdcnt, hrddg, hscrub, List.count_cons_of_ne (show Instr.rdstat ≠ .xform by decide),
    padding_count_xform hindex, footer_count_xform]
  split <;> rfl

/-- Settles O57: the parts of FINALIZE from its two UPDATEs, and the transforms counted list by list. -/
theorem finalizeIssuesOneOrTwoTransforms : Obligations.FinalizeIssuesOneOrTwoTransforms := by
  unfold Obligations.FinalizeIssuesOneOrTwoTransforms
  refine ⟨fun scrub s hactive hfilled => ?_, fun index lo hi hindex => ?_, fun scrub m lo hi => ?_⟩
  · obtain ⟨padded, footed, hpad, hindex, hfoot, hdone⟩ := finalize_updates hactive hfilled
    exact ⟨_, _, runFinalize_of_updates hactive hpad hfoot hdone scrub,
      issueAll_finalizeCommands hactive hpad hfoot hdone hindex scrub,
      finalizeCommands_count_xform scrub s.index.isLt _ _⟩
  · exact ⟨padding_count_xform hindex, footer_count_xform lo hi⟩
  · rw [updateCommands_count_xform (by decide), finalizeCommands_count_xform scrub (Nat.mod_lt _ (by decide)),
      Nat.zero_add]

/-! ### A message on its way through the core (R201, R215) -/

/-- A completed command keeps BLKV in agreement with the block. -/
theorem State.MaskMatchesBlock.exec {s t : State} (h : s.MaskMatchesBlock) {i : Instr}
    (hexec : Machine.exec i s = .next t) : t.MaskMatchesBlock := by
  rcases exec_next i s with ⟨e, he⟩ | he <;> cases he.symm.trans hexec
  · exact h
  · exact h.effect i

theorem State.MaskMatchesBlock.issueAll {is : List Instr} {s t : State} (h : s.MaskMatchesBlock)
    (hrun : Machine.issueAll is s = .next t) : t.MaskMatchesBlock := by
  induction is generalizing s with
  | nil =>
    cases hrun
    exact h
  | cons i is ih =>
    obtain ⟨u, hexec, hrest⟩ := andThen_eq_next hrun
    exact ih (h.exec hexec) hrest

/-- The bytes of a message after its complete blocks. -/
def leftOver (m : List Byte) : List Byte := m.drop (64 * (m.length / 64))

theorem leftOver_length (m : List Byte) : (leftOver m).length = m.length % 64 := by
  rw [leftOver, List.length_drop]
  omega

/-- The complete blocks of a message that grows: those of its first part, and those that what is left over of it and
the second part complete. -/
theorem length_append_div (m p : List Byte) :
    (m ++ p).length / 64 = m.length / 64 + ((leftOver m).length + p.length) / 64 := by
  rw [List.length_append, leftOver_length]
  omega

theorem drop_blocks_append (m p : List Byte) : (m ++ p).drop (64 * (m.length / 64)) = leftOver m ++ p :=
  List.drop_append_of_le_length (Nat.mul_div_le _ _)

theorem leftOver_append (m p : List Byte) :
    leftOver (m ++ p) = (leftOver m ++ p).drop (64 * (((leftOver m).length + p.length) / 64)) := by
  rw [leftOver, length_append_div, Nat.mul_add, ← List.drop_drop, drop_blocks_append]

theorem iterateBlocks_extend (acc : Quad) (m p : List Byte) :
    iterateBlocks ((m ++ p).length / 64) acc (m ++ p) =
      iterateBlocks (((leftOver m).length + p.length) / 64) (iterateBlocks (m.length / 64) acc m)
        (leftOver m ++ p) := by
  rw [length_append_div, iterateBlocks_add, iterateBlocks_append _ _ _ _ (Nat.mul_div_le _ _), drop_blocks_append]

/-- The core has taken in the bytes `m` since INIT: the complete blocks are transformed and the block holds the rest. -/
structure State.Absorbed (s : State) (m : List Byte) : Prop where
  active : s.phase = .active
  count : s.bitCount = 8 * m.length % 2 ^ 64
  filled : s.PrefixFilled
  mask : s.MaskMatchesBlock
  acc : s.acc = iterateBlocks (m.length / 64) iv m
  holds : s.Holds (leftOver m)

theorem State.Absorbed.index {s : State} {m : List Byte} (h : s.Absorbed m) : s.index.toNat = m.length % 64 := by
  rw [State.index_eq_bitCount, h.count]
  omega

theorem State.Absorbed.counterRead {s : State} {m : List Byte} (h : s.Absorbed m) : s.counterRead.Absorbed m :=
  ⟨h.active, h.count, h.filled, h.mask, h.acc, h.holds⟩

theorem begin_absorbed (s : State) : (s.begin.respond 0).Absorbed [] := by
  refine ⟨rfl, ?_, fun k => ?_, State.maskMatchesBlock_of_empty rfl rfl, ?_, State.Holds.nil _⟩
  · simp [State.bitCount]
  · simp [State.index]
  · rfl

/-- UPDATE appends its bytes to those taken in, and every response is OK. -/
theorem State.Absorbed.update {s : State} {m : List Byte} (h : s.Absorbed m) {p : List Byte}
    (hlen : p.length < 2 ^ 32) : ∃ t, runUpdate p s = .next t ∧ t.Absorbed (m ++ p) ∧ AllOk s t := by
  obtain ⟨t, hrun, hactive, hfilled, hcount, _, hok⟩ := runUpdate_end p hlen h.active h.filled
  have hrest : (leftOver m).length = s.index.toNat := (leftOver_length m).trans h.index.symm
  obtain ⟨t', hrun', hacc, hholds⟩ := issueAll_feed_acc p (buf := leftOver m) (hrest ▸ s.index.isLt)
    (s := s.counted p.length) h.active (hrest ▸ h.filled) h.holds
  rw [hrest, ← runUpdate_eq_feed p h.active] at hrun'
  cases hrun'.symm.trans hrun
  refine ⟨t, hrun, ⟨hactive, ?_, hfilled, h.mask.issueAll ((runUpdate_eq p s).symm.trans hrun), ?_, ?_⟩, hok⟩
  · rw [hcount, h.count, List.length_append]
    omega
  · rw [iterateBlocks_extend, ← h.acc]
    exact hacc
  · rw [leftOver_append]
    exact hholds

theorem State.Absorbed.updates {s : State} {m : List Byte} (h : s.Absorbed m) {pieces : List (List Byte)}
    (hlen : ∀ p ∈ pieces, p.length < 2 ^ 32) :
    ∃ t, runUpdates pieces s = .next t ∧ t.Absorbed (m ++ pieces.flatten) ∧ AllOk s t := by
  induction pieces generalizing s m with
  | nil => exact ⟨s, rfl, by rwa [List.flatten_nil, List.append_nil], AllOk.refl s⟩
  | cons p rest ih =>
    obtain ⟨hp, hrest⟩ := List.forall_mem_cons.mp hlen
    obtain ⟨u, hrun, hu, hok⟩ := h.update hp
    obtain ⟨t, hruns, ht, hoks⟩ := ih hu hrest
    rw [List.append_assoc, ← List.flatten_cons] at ht
    exact ⟨t, by rw [runUpdates, hrun, andThen_next, hruns], ht, hok.trans hoks⟩

/-- Where whole blocks were taken in, the block is empty. -/
theorem State.Absorbed.block_empty {s : State} {m : List Byte} (h : s.Absorbed m) (hwhole : m.length % 64 = 0) :
    s.blk = [] ∧ s.blkv = 0 := by
  have hzero : s.blkv = 0 := BitVec.eq_of_getLsbD_eq fun k hk => by
    rw [h.filled ⟨k, hk⟩, h.index, hwhole]
    exact BitVec.getLsbD_zero.symm
  exact ⟨h.mask.blk_eq_nil hzero, hzero⟩

/-! ### HASH (R215) -/

theorem paddedMessage_length_mod (m : List Byte) : (paddedMessage m).length % 64 = 0 := by
  obtain ⟨_, _, _, _, hmod, hlen⟩ := paddingFillsToFiftySix (m.length % 64) (Nat.mod_lt _ (by decide))
  simp only [paddedMessage, List.length_append, le64_length, hlen]
  omega

/-- FINALIZE takes in the padding and the footer, so that the accumulator is that of the padded message, and reads the
digest. -/
theorem State.Absorbed.finalize {s : State} {m : List Byte} (h : s.Absorbed m) (scrub : Bool) :
    ∃ t, t.Absorbed (paddedMessage m) ∧ AllOk s t ∧
      runFinalize scrub s = .next (t.digestRead.scrubbedIf scrub, digestOf t.acc) := by
  obtain ⟨_, _, _, hle, _, hlen⟩ := paddingFillsToFiftySix s.index.toNat s.index.isLt
  obtain ⟨padded, hpad, hpadded, hok⟩ := h.counterRead.update (p := padding s.index.toNat) (by omega)
  obtain ⟨t, hfoot, ht, hok'⟩ := hpadded.update (p := footer s.cnt[0] s.cnt[1]) (by simp [footer_length])
  have hmessage : m ++ padding s.index.toNat ++ footer s.cnt[0] s.cnt[1] = paddedMessage m := by
    rw [paddedMessage, h.index, footer_eq_le64 h.count]
  exact ⟨t, hmessage ▸ ht, s.counterRead_allOk.trans (hok.trans hok'),
    runFinalize_of_updates h.active hpad hfoot ht.active scrub⟩

/-- HASH of pieces from every state: a state with the padded message taken in, its digest read, and then scrubbed or
not. -/
theorem runHashPieces_end (scrub : Bool) {pieces : List (List Byte)} (s : State)
    (hlen : ∀ p ∈ pieces, p.length < 2 ^ 32) :
    ∃ t : State, t.Absorbed (paddedMessage pieces.flatten) ∧ digestOf t.acc = md4Digest pieces.flatten ∧
      AllOk s (t.digestRead.scrubbedIf scrub) ∧
      runHashPieces scrub pieces s = .next (t.digestRead.scrubbedIf scrub, md4Digest pieces.flatten) := by
  have hinit : exec .init s = .next (s.begin.respond 0) := rfl
  obtain ⟨u, hupdates, hu, hok⟩ := (begin_absorbed s).updates hlen
  obtain ⟨t, ht, hok', hfinal⟩ := hu.finalize scrub
  have hdigest : digestOf t.acc = md4Digest pieces.flatten := by
    rw [ht.acc, List.nil_append]
    rfl
  rw [List.nil_append] at ht
  have hbegin : AllOk s (s.begin.respond 0) := AllOk.respond rfl rfl 0
  have hread := t.digestRead_allOk.trans (State.scrubbedIf_allOk scrub _)
  refine ⟨t, ht, hdigest, hbegin.trans (hok.trans (hok'.trans hread)), ?_⟩
  rw [runHashPieces, hinit, andThen_next, hupdates, andThen_next, hfinal, hdigest]

/-- One piece is one UPDATE. -/
theorem runHash_eq_pieces (scrub : Bool) (m : List Byte) (s : State) :
    runHash scrub m s = runHashPieces scrub [m] s := by
  have hone : runUpdates [m] = runUpdate m := by
    funext u
    rw [runUpdates]
    cases runUpdate m u <;> rfl
  rw [runHash, runHashPieces, hone]

/-- Settles O58: HASH of one piece, and the registers after the digest is read, scrubbed or not. -/
theorem hashComputesTheMessageDigest : Obligations.HashComputesTheMessageDigest := by
  unfold Obligations.HashComputesTheMessageDigest
  intro scrub m s hlen
  obtain ⟨t, ht, hdigest, ⟨herr, hgiven⟩, hrun⟩ := runHashPieces_end scrub (pieces := [m]) s (by simpa using hlen)
  rw [List.flatten_singleton] at ht hdigest hrun
  obtain ⟨hblk, hblkv⟩ := ht.block_empty (paddedMessage_length_mod m)
  refine ⟨_, (runHash_eq_pieces scrub m s).trans hrun, ?_, ?_, ?_, ?_, herr, hgiven⟩
  · rintro rfl
    exact ⟨rfl, rfl, rfl⟩
  · rintro rfl
    exact ⟨ht.active, hdigest⟩
  · cases scrub
    · exact hblk
    · rfl
  · cases scrub
    · exact hblkv
    · rfl

/-- Settles O59: the pieces of any total length, the counter modulo 2^64. -/
theorem hashOfPiecesComputesTheMessageDigest : Obligations.HashOfPiecesComputesTheMessageDigest := by
  unfold Obligations.HashOfPiecesComputesTheMessageDigest
  intro scrub pieces s hlen
  obtain ⟨t, ht, _, hok, hrun⟩ := runHashPieces_end scrub s hlen
  refine ⟨_, hrun, ?_, hok.goodRun⟩
  cases scrub
  · exact ht.active
  · rfl

end Sys2Proof.Machine

namespace Sys2Proof.Machine

/-! ### A word always answers a next state, and which error is reported first (60_exceptions.md R236, R237) -/

theorem exists_perform_eq_next (w : CmdWord) (s : State) : ∃ t, perform w s = .next t :=
  (perform_next w s).elim (fun ⟨_, he⟩ => ⟨_, he⟩) (fun ⟨_, _, _, he⟩ => ⟨_, he⟩)

/-- Settles O11: an empty port, a reset and a command word each answer a next state. -/
theorem stepAlwaysAnswersANextState : Obligations.StepAlwaysAnswersANextState := by
  unfold Obligations.StepAlwaysAnswersANextState
  intro s
  rcases step_cases s with ⟨_, hnone⟩ | ⟨_, _, hreset⟩ | ⟨w, rest, _, hcmd⟩
  · exact ⟨s, hnone⟩
  · exact ⟨_, hreset⟩
  · rw [hcmd]
    exact exists_perform_eq_next w _

theorem perform_illegal_rejectedWith {w : CmdWord} (h : decode w = .illegal) (s : State) :
    RejectedWith .illegal s (perform w s) :=
  (perform_illegal h s).trans (reject_rejectedWith .illegal s)

theorem perform_outOfBounds_rejectedWith {w : CmdWord} (h : decode w = .outOfBounds) (s : State) :
    RejectedWith .bounds s (perform w s) :=
  (perform_outOfBounds h s).trans (reject_rejectedWith .bounds s)

/-- A decoded command is well formed, so in IDLE one that needs ACTIVE has no earlier error than ErrState. -/
theorem perform_idle_rejectedWith {w : CmdWord} {i : Instr} (h : decode w = .command i) (ha : anyPhase i = false)
    {s : State} (hidle : s.phase = .idle) : RejectedWith .state s (perform w s) := by
  obtain ⟨_, hwf⟩ := decodedWordIsTheEncodingOfItsCommand w i h
  exact (perform_command h s).trans (exec_idle_rejectedWith hwf ha hidle)

theorem perform_xform_rejectedWith {w : CmdWord} (h : decode w = .command .xform) {s : State}
    (hactive : s.phase = .active) (hpart : s.full = false) : RejectedWith .incomplete s (perform w s) := by
  rw [perform_command h, exec_xform_incomplete hactive hpart]
  exact reject_rejectedWith .incomplete s

/-- A decoded command that its phase allows, XFORM with a complete block only, answers OK and leaves ERR. -/
theorem perform_performed {w : CmdWord} {i : Instr} (h : decode w = .command i) {s : State}
    (hfull : i = .xform → s.full = true) (hguard : s.phase = .active ∨ anyPhase i = true) :
    ∃ (t : State) (v : Word), perform w s = .next t ∧ t.err = s.err ∧ t.rsps = rspWord 0 v :: s.rsps := by
  obtain ⟨_, hwf⟩ := decodedWordIsTheEncodingOfItsCommand w i h
  have hperformed := (perform_command h s).trans (exec_performed hwf hfull hguard)
  exact ⟨_, answerData i s, hperformed, by simp, by simp⟩

/-- The guard under which R237 says that a command is performed gives the two of `perform_performed`. -/
theorem performed_guards {i : Instr} {s : State} (h : i ∈ [.init, .scrub, .rdstat] ∨
      (s.phase = .active ∧ (i = .xform → s.blkv = BitVec.allOnes 64))) :
    (i = .xform → s.full = true) ∧ (s.phase = .active ∨ anyPhase i = true) := by
  rcases h with hmem | ⟨hactive, hfull⟩
  · refine ⟨?_, .inr (anyPhase_iff_mem.mpr hmem)⟩
    rintro rfl
    exact absurd hmem (by decide)
  · exact ⟨fun hx => s.full_iff.mpr (hfull hx), .inl hactive⟩

/-- Settles O14: the decoder's two refusals, then the lifecycle check, then the block, and in IDLE the four words of the
rule. -/
theorem errorsAreReportedInTheirPriority : Obligations.ErrorsAreReportedInTheirPriority := by
  unfold Obligations.ErrorsAreReportedInTheirPriority
  refine ⟨fun w s => ⟨(perform_illegal_rejectedWith · s), (perform_outOfBounds_rejectedWith · s),
    fun i hd => ⟨fun hnot hidle => ?_, ?_, fun hguard => ?_⟩⟩, fun s hidle => ⟨?_, ?_, ?_, ?_⟩⟩
  · exact perform_idle_rejectedWith hd (anyPhase_eq_false_of_notMem hnot) hidle
  · rintro rfl hactive hpart
    exact perform_xform_rejectedWith hd hactive (Bool.eq_false_of_not_eq_true (mt s.full_iff.mp hpart))
  · obtain ⟨hfull, hphase⟩ := performed_guards hguard
    exact perform_performed hd hfull hphase
  · exact perform_outOfBounds_rejectedWith (by decide) s
  · exact perform_illegal_rejectedWith (by decide) s
  · exact perform_idle_rejectedWith (i := .xform) (by decide) rfl hidle
  · exact perform_illegal_rejectedWith (by decide) s

end Sys2Proof.Machine
